-- ==== Sys2Proof/Word.lean ====
section
/-! DEFINITION. The words of KUE-CHIP2: an 8-bit data word and a 9-bit memory address (rule R3). -/

namespace Sys2Proof

/-- A data word, a register or one byte of memory (rules R3 and R30). -/
abbrev Byte := BitVec 8

/-- A memory address, 0x000 to 0x1FF (rule R30). -/
abbrev Addr := BitVec 9

end Sys2Proof
end

