-- ==== Sys2Proof/Config.lean ====
section
/-! DEFINITION. What an implementation fixes and what the spec leaves open: the four parameters of rule R4. -/

namespace Sys2Proof

/-- The parameter `unused_5x_is_hlt` of rule R4: true, its default, makes the first bytes 0x50 to 0x5F run as HLT;
false makes them fault as the illegal ST does. DESIGN CHOICE of the spec, decision D9 (log entry 8). -/
def Config.unused5xIsHlt : Bool := true

/-- The environment `io_env` of rule R163: the byte it presents on IBUF at step k. A free value (log entry 10). -/
opaque Config.ibufAt : Nat → Byte

/-- `io_env` of rule R163: the level of IBUF_FLG_IN at step k. A free value (log entry 10). -/
opaque Config.ibufFlgAt : Nat → Bool

/-- `io_env` of rule R163: the level of OBUF_FLG_IN at step k. A free value (log entry 10). -/
opaque Config.obufFlgAt : Nat → Bool

/-- The parameter `reset_values` of rule R4 (decision D4): the start values of what rule R25 calls unspecified. -/
structure Config.ResetValues where
  acc  : Byte
  ix   : Byte
  cf   : Bool
  vf   : Bool
  nf   : Bool
  zf   : Bool
  obuf : Byte
  ir   : Byte
  deriving DecidableEq, Repr

/-- The start values `State.reset` takes: all zero. DESIGN CHOICE, unsafe (log entry 3): the spec gives none. -/
def Config.resetValues : Config.ResetValues :=
  { acc := 0, ix := 0, cf := false, vf := false, nf := false, zf := false, obuf := 0, ir := 0 }

/-- What a byte of memory that nothing has written reads as. DESIGN CHOICE, unsafe (log entry 12): the spec
leaves the byte free (rule R173, `launch_memory`). -/
def Config.unlistedByte : Byte := 0

end Sys2Proof
end

