-- ==== Sys2Proof/Syntax.lean ====
section
/-! DEFINITION. The instructions of KUE-CHIP2: one constructor per row of spec/opcode_table.json. -/

namespace Sys2Proof

/-- A general register: field A of rule R56, and op2 for B = 000 and 001 (rule R57). -/
inductive Reg where
  | acc
  | ix
  deriving DecidableEq, Repr

/-- The four memory forms of op2 (rule R57): absolute or indexed, in the program or the data area. -/
inductive MemMode where
  | absProg   -- [d], B = 100
  | absData   -- (d), B = 101
  | idxProg   -- [IX+d], B = 110
  | idxData   -- (IX+d), B = 111
  deriving DecidableEq, Repr

/-- The instructions, in the order of spec/opcode_table.json. A don't-care bit of the code table (rule R62) is no
part of an instruction. -/
inductive Instr where
  | nop                                           -- rule R80
  | hlt                                           -- rule R81
  | out                                           -- rule R82
  | inp                                           -- IN, rule R83
  | rcf                                           -- rule R84
  | scf                                           -- rule R85
  | unused5x                                      -- the unused code 0101----, rule R63
  | ba (d : Byte)                                 -- rule R91
  | bvf (d : Byte)                                -- rule R92
  | bnz (d : Byte)                                -- rule R93
  | bz (d : Byte)                                 -- rule R94
  | bzp (d : Byte)                                -- rule R95
  | bn (d : Byte)                                 -- rule R96
  | bp (d : Byte)                                 -- rule R97
  | bzn (d : Byte)                                -- rule R98
  | bni (d : Byte)                                -- rule R99
  | bno (d : Byte)                                -- rule R100
  | bnc (d : Byte)                                -- rule R101
  | bc (d : Byte)                                 -- rule R102
  | bge (d : Byte)                                -- rule R103
  | blt (d : Byte)                                -- rule R104
  | bgt (d : Byte)                                -- rule R105
  | ble (d : Byte)                                -- rule R106
  | sra (a : Reg)                                 -- rule R112
  | sla (a : Reg)                                 -- rule R113
  | srl (a : Reg)                                 -- rule R114
  | sll (a : Reg)                                 -- rule R115
  | rra (a : Reg)                                 -- rule R116
  | rla (a : Reg)                                 -- rule R117
  | rrl (a : Reg)                                 -- rule R118
  | rll (a : Reg)                                 -- rule R119
  | ldReg (a b : Reg)                             -- rule R128, B = 00x
  | ldImm (a : Reg) (d : Byte)                    -- rule R128, B = 01x
  | ldMem (a : Reg) (m : MemMode) (d : Byte)      -- rule R128, B = 1xx
  | stIllegal (a : Reg) (b : BitVec 2)            -- ST with B = 0bb, rule R64
  | stMem (a : Reg) (m : MemMode) (d : Byte)      -- rule R129, B = 1xx
  | sbcReg (a b : Reg)                            -- rule R137, B = 00x
  | sbcImm (a : Reg) (d : Byte)                   -- rule R137, B = 01x
  | sbcMem (a : Reg) (m : MemMode) (d : Byte)     -- rule R137, B = 1xx
  | adcReg (a b : Reg)                            -- rule R138, B = 00x
  | adcImm (a : Reg) (d : Byte)                   -- rule R138, B = 01x
  | adcMem (a : Reg) (m : MemMode) (d : Byte)     -- rule R138, B = 1xx
  | subReg (a b : Reg)                            -- rule R139, B = 00x
  | subImm (a : Reg) (d : Byte)                   -- rule R139, B = 01x
  | subMem (a : Reg) (m : MemMode) (d : Byte)     -- rule R139, B = 1xx
  | addReg (a b : Reg)                            -- rule R140, B = 00x
  | addImm (a : Reg) (d : Byte)                   -- rule R140, B = 01x
  | addMem (a : Reg) (m : MemMode) (d : Byte)     -- rule R140, B = 1xx
  | eorReg (a b : Reg)                            -- rule R141, B = 00x
  | eorImm (a : Reg) (d : Byte)                   -- rule R141, B = 01x
  | eorMem (a : Reg) (m : MemMode) (d : Byte)     -- rule R141, B = 1xx
  | orReg (a b : Reg)                             -- rule R142, B = 00x
  | orImm (a : Reg) (d : Byte)                    -- rule R142, B = 01x
  | orMem (a : Reg) (m : MemMode) (d : Byte)      -- rule R142, B = 1xx
  | andReg (a b : Reg)                            -- rule R143, B = 00x
  | andImm (a : Reg) (d : Byte)                   -- rule R143, B = 01x
  | andMem (a : Reg) (m : MemMode) (d : Byte)     -- rule R143, B = 1xx
  | cmpReg (a b : Reg)                            -- rule R144, B = 00x
  | cmpImm (a : Reg) (d : Byte)                   -- rule R144, B = 01x
  | cmpMem (a : Reg) (m : MemMode) (d : Byte)     -- rule R144, B = 1xx
  deriving DecidableEq, Repr

end Sys2Proof
end

