-- ==== Sys2Proof/WellFormed.lean ====
section
/-! DEFINITION. Which terms of `Instr` are instructions of the instruction set. -/

namespace Sys2Proof

/-- Every constructor's fields hold only what the encoding admits, so one check remains: ST with a register or an
immediate as second operand is not an instruction (rule R64). -/
def WellFormed : Instr → Bool
  | .stIllegal _ _ => false
  | _ => true

end Sys2Proof
end

