-- ==== Sys2Proof/Decode.lean ====
section
/-! DEFINITION. The decoder of rule R55, total on any bytes, and after it an encoder from the same tables. -/

namespace Sys2Proof

/-- What the first byte alone says (rule R55): the whole instruction, or one that still needs its second byte d. -/
inductive FirstByte where
  | whole (i : Instr)
  | needsSecond (f : Byte → Instr)

/-- Why a list of bytes gives no instruction. Every first byte decodes (rules R55 and R65), so a list can only be too
short; a fetch from memory never is. -/
inductive DecodeError where
  | noFirstByte
  | noSecondByte
  deriving DecidableEq, Repr

/-- Field A (rule R56). -/
def decodeReg (bit : Bool) : Reg :=
  match bit with
  | false => .acc
  | true => .ix

/-- Bits B[1] and B[0] of a memory form (rule R57): B[1] says whether IX is added, B[0] is address bit 8. -/
def decodeMode (b1 b0 : Bool) : MemMode :=
  match b1, b0 with
  | false, false => .absProg
  | false, true => .absData
  | true, false => .idxProg
  | true, true => .idxData

/-- Field cc of Bcc (rule R59), written cc[3] first as in the source's table. -/
def decodeBranch (c3 c2 c1 c0 : Bool) : Byte → Instr :=
  match c3, c2, c1, c0 with
  | false, false, false, false => .ba
  | true, false, false, false => .bvf
  | false, false, false, true => .bnz
  | true, false, false, true => .bz
  | false, false, true, false => .bzp
  | true, false, true, false => .bn
  | false, false, true, true => .bp
  | true, false, true, true => .bzn
  | false, true, false, false => .bni
  | true, true, false, false => .bno
  | false, true, false, true => .bnc
  | true, true, false, true => .bc
  | false, true, true, false => .bge
  | true, true, true, false => .blt
  | false, true, true, true => .bgt
  | true, true, true, true => .ble

/-- Fields r and sm of a type 3 instruction (rule R58). -/
def decodeShift (r sm1 sm0 : Bool) : Reg → Instr :=
  match r, sm1, sm0 with
  | false, false, false => .sra
  | false, false, true => .sla
  | false, true, false => .srl
  | false, true, true => .sll
  | true, false, false => .rra
  | true, false, true => .rla
  | true, true, false => .rrl
  | true, true, true => .rll

/-- A type 4 instruction with its operand forms (rules R54 and R57): the register form is one byte, the immediate
and the memory form two. -/
def decodeType4 (b : Byte) (reg : Reg → Reg → Instr) (imm : Reg → Byte → Instr)
    (mem : Reg → MemMode → Byte → Instr) : FirstByte :=
  let a := decodeReg b[3]
  match b[2], b[1] with
  | false, false => .whole (reg a (decodeReg b[0]))
  | false, true => .needsSecond (imm a)
  | true, _ => .needsSecond (mem a (decodeMode b[1] b[0]))

/-- ST (rules R54 and R64): with B[2] = 0 the byte is illegal, and no second byte is taken (rule R153). -/
def decodeSt (b : Byte) : FirstByte :=
  let a := decodeReg b[3]
  match b[2] with
  | false => .whole (.stIllegal a (b.extractLsb' 0 2))
  | true => .needsSecond (.stMem a (decodeMode b[1] b[0]))

/-- The decoder of rule R55 on the high four bits of the first byte, written bit 7 first. -/
def decodeFirst (b : Byte) : FirstByte :=
  match b[7], b[6], b[5], b[4] with
  | false, false, false, false => .whole (if b[3] then .hlt else .nop)
  | false, false, false, true => .whole (if b[3] then .inp else .out)
  | false, false, true, false => .whole (if b[3] then .scf else .rcf)
  | false, false, true, true => .needsSecond (decodeBranch b[3] b[2] b[1] b[0])
  | false, true, false, false => .whole (decodeShift b[2] b[1] b[0] (decodeReg b[3]))
  | false, true, false, true => .whole .unused5x
  | false, true, true, false => decodeType4 b .ldReg .ldImm .ldMem
  | false, true, true, true => decodeSt b
  | true, false, false, false => decodeType4 b .sbcReg .sbcImm .sbcMem
  | true, false, false, true => decodeType4 b .adcReg .adcImm .adcMem
  | true, false, true, false => decodeType4 b .subReg .subImm .subMem
  | true, false, true, true => decodeType4 b .addReg .addImm .addMem
  | true, true, false, false => decodeType4 b .eorReg .eorImm .eorMem
  | true, true, false, true => decodeType4 b .orReg .orImm .orMem
  | true, true, true, false => decodeType4 b .andReg .andImm .andMem
  | true, true, true, true => decodeType4 b .cmpReg .cmpImm .cmpMem

/-- Reads one instruction off the front of a list of bytes and returns it with the bytes after it; the second byte
of an instruction is the byte after the first (rules R14 and R36). -/
def decode : List Byte → Except DecodeError (Instr × List Byte)
  | [] => .error .noFirstByte
  | b :: rest =>
    match decodeFirst b with
    | .whole i => .ok (i, rest)
    | .needsSecond f =>
      match rest with
      | [] => .error .noSecondByte
      | d :: rest' => .ok (f d, rest')

/-- The length of an instruction in bytes, told by its first byte alone (rules R51 to R54 and R63). The length of
an illegal ST is undefined (rule R64); the decoder takes one byte of it. -/
def lengthOfFirst (b : Byte) : Nat :=
  match decodeFirst b with
  | .whole _ => 1
  | .needsSecond _ => 2

/-- Field A of a register (rule R56). -/
def encodeReg : Reg → BitVec 1
  | .acc => 0#1
  | .ix => 1#1

/-- Field B of a memory form (rule R57). -/
def encodeMode : MemMode → BitVec 3
  | .absProg => 0b100#3
  | .absData => 0b101#3
  | .idxProg => 0b110#3
  | .idxData => 0b111#3

/-- The one byte of a type 3 instruction, 0100 A r sm (rules R53 and R58). -/
def encodeShift (rsm : BitVec 3) (a : Reg) : List Byte :=
  [0x4#4 ++ encodeReg a ++ rsm]

/-- The two bytes of Bcc, 0011 cc then d (rules R52 and R59). -/
def encodeBranch (cc : BitVec 4) (d : Byte) : List Byte :=
  [0x3#4 ++ cc, d]

/-- A type 4 instruction with a register as second operand (rule R54). -/
def encodeRegForm (op : BitVec 4) (a b : Reg) : List Byte :=
  [op ++ encodeReg a ++ (0b00#2 ++ encodeReg b)]

/-- A type 4 instruction with an immediate: of B = 010 and 011 the assembler's 010 (rule R62). -/
def encodeImmForm (op : BitVec 4) (a : Reg) (d : Byte) : List Byte :=
  [op ++ encodeReg a ++ 0b010#3, d]

/-- A type 4 instruction with a memory operand (rule R54). -/
def encodeMemForm (op : BitVec 4) (a : Reg) (m : MemMode) (d : Byte) : List Byte :=
  [op ++ encodeReg a ++ encodeMode m, d]

/-- The first byte of ST with B = 0bb, which rule R64 calls illegal. -/
def illegalStByte (a : Reg) (b : BitVec 2) : Byte :=
  0x7#4 ++ encodeReg a ++ (0#1 ++ b)

/-- The bytes of an instruction (rules R51 to R54). Don't-care bits are the assembler's (rule R62); the unused code,
which no assembler emits, is written 0x50 (DESIGN CHOICE, log entry 9). -/
def encode : Instr → List Byte
  | .nop => [0x00]
  | .hlt => [0x0F]
  | .out => [0x10]
  | .inp => [0x1F]
  | .rcf => [0x20]
  | .scf => [0x2F]
  | .unused5x => [0x50]
  | .ba d => encodeBranch 0b0000 d
  | .bvf d => encodeBranch 0b1000 d
  | .bnz d => encodeBranch 0b0001 d
  | .bz d => encodeBranch 0b1001 d
  | .bzp d => encodeBranch 0b0010 d
  | .bn d => encodeBranch 0b1010 d
  | .bp d => encodeBranch 0b0011 d
  | .bzn d => encodeBranch 0b1011 d
  | .bni d => encodeBranch 0b0100 d
  | .bno d => encodeBranch 0b1100 d
  | .bnc d => encodeBranch 0b0101 d
  | .bc d => encodeBranch 0b1101 d
  | .bge d => encodeBranch 0b0110 d
  | .blt d => encodeBranch 0b1110 d
  | .bgt d => encodeBranch 0b0111 d
  | .ble d => encodeBranch 0b1111 d
  | .sra a => encodeShift 0b000 a
  | .sla a => encodeShift 0b001 a
  | .srl a => encodeShift 0b010 a
  | .sll a => encodeShift 0b011 a
  | .rra a => encodeShift 0b100 a
  | .rla a => encodeShift 0b101 a
  | .rrl a => encodeShift 0b110 a
  | .rll a => encodeShift 0b111 a
  | .ldReg a b => encodeRegForm 0b0110 a b
  | .ldImm a d => encodeImmForm 0b0110 a d
  | .ldMem a m d => encodeMemForm 0b0110 a m d
  | .stIllegal a b => [illegalStByte a b]
  | .stMem a m d => encodeMemForm 0b0111 a m d
  | .sbcReg a b => encodeRegForm 0b1000 a b
  | .sbcImm a d => encodeImmForm 0b1000 a d
  | .sbcMem a m d => encodeMemForm 0b1000 a m d
  | .adcReg a b => encodeRegForm 0b1001 a b
  | .adcImm a d => encodeImmForm 0b1001 a d
  | .adcMem a m d => encodeMemForm 0b1001 a m d
  | .subReg a b => encodeRegForm 0b1010 a b
  | .subImm a d => encodeImmForm 0b1010 a d
  | .subMem a m d => encodeMemForm 0b1010 a m d
  | .addReg a b => encodeRegForm 0b1011 a b
  | .addImm a d => encodeImmForm 0b1011 a d
  | .addMem a m d => encodeMemForm 0b1011 a m d
  | .eorReg a b => encodeRegForm 0b1100 a b
  | .eorImm a d => encodeImmForm 0b1100 a d
  | .eorMem a m d => encodeMemForm 0b1100 a m d
  | .orReg a b => encodeRegForm 0b1101 a b
  | .orImm a d => encodeImmForm 0b1101 a d
  | .orMem a m d => encodeMemForm 0b1101 a m d
  | .andReg a b => encodeRegForm 0b1110 a b
  | .andImm a d => encodeImmForm 0b1110 a d
  | .andMem a m d => encodeMemForm 0b1110 a m d
  | .cmpReg a b => encodeRegForm 0b1111 a b
  | .cmpImm a d => encodeImmForm 0b1111 a d
  | .cmpMem a m d => encodeMemForm 0b1111 a m d

/-- The bytes of an instruction given as one number of `nbits` bits, its first byte the lowest (the numbering of
spec/opcode_table.json); bits above `nbits` are 0. -/
def tableBytes (nbits w : Nat) : Byte × Byte :=
  let v := w % 2 ^ nbits
  (BitVec.ofNat 8 v, BitVec.ofNat 8 (v / 256))

/-- What the decoder reads from an instruction given as one number. -/
def decodeTableWord (nbits w : Nat) : Option Instr :=
  match decode [(tableBytes nbits w).1, (tableBytes nbits w).2] with
  | .ok (i, _) => some i
  | .error _ => none

end Sys2Proof
end

