-- ==== Sys2Proof/Machine/State.lean ====
section
/-! DEFINITION. The state of a KUE-CHIP2 system as plain data, and its state at the start of a run. -/

namespace Sys2Proof.Machine

/-- Why the machine stops without a next state. -/
inductive Fault where
  /-- Raised by the meaning of ST with B = 0xx (rules R64 and R151), the model's one abnormal outcome: the hardware
  may do anything. Also raised by the unused code when `Config.unused5xIsHlt` is false (rule R63). Safe: nothing can
  be proved past it. -/
  | illegalEncoding (b : Byte)
  /-- Raised by `step` alone, on a halted state, which has no further step (rule R176). Safe: the run has ended. -/
  | halted
  deriving DecidableEq, Repr

/-- Why the machine gives an instruction no meaning. -/
inductive Refusal where
  /-- Raised only by a refused arm of `exec`, for an instruction without a meaning yet; there is none left. Safe. -/
  | notModelled (mnemonic : String)
  deriving DecidableEq, Repr

/-- The run state of rule R22. -/
inductive RunState where
  | running
  | halted
  deriving DecidableEq, Repr

/-- The 512 bytes of memory (rule R30): the listed bytes in rising order of address. A byte that is not listed
reads as `Config.unlistedByte`. -/
abbrev Memory := List Host.Cell

/-- The whole state (10_state.md section 1), with the output trace and the step number of rule R163. -/
structure State where
  acc       : Byte                  -- ACC = x[0], rule R10
  ix        : Byte                  -- IX = x[1], rule R11
  pc        : Byte                  -- PC, rule R13
  ir        : Byte                  -- IR, rule R18
  cf        : Bool                  -- CF, rule R15
  vf        : Bool                  -- VF, rule R15
  nf        : Bool                  -- NF, rule R15
  zf        : Bool                  -- ZF, rule R15
  mem       : Memory                -- rule R23
  obuf      : Byte                  -- OBUF, rule R20
  ibuf      : Byte                  -- IBUF as the environment drives it for the next step, rule R20
  ibufFlgIn : Bool                  -- IBUF_FLG_IN likewise, rule R21
  obufFlgIn : Bool                  -- OBUF_FLG_IN likewise, rule R21
  run       : RunState              -- rule R22
  outTrace  : List (Nat × Byte)     -- the output trace of rule R163, oldest first
  stepNo    : Nat                   -- k of rule R163: the number of steps taken
  deriving DecidableEq, Repr

/-- The start of a run (rules R25 and R170): PC = 0x00 and running, the launch's memory, the given start values, and
the environment's first levels. -/
def State.launch (v : Config.ResetValues) (m : Memory) : State where
  acc := v.acc
  ix := v.ix
  pc := 0
  ir := v.ir
  cf := v.cf
  vf := v.vf
  nf := v.nf
  zf := v.zf
  mem := m
  obuf := v.obuf
  ibuf := Config.ibufAt 0
  ibufFlgIn := Config.ibufFlgAt 0
  obufFlgIn := Config.obufFlgAt 0
  run := .running
  outTrace := []
  stepNo := 0

/-- The machine right after reset: the start of a run with the model's start values (log entry 3) and no byte
placed in memory. -/
def State.reset : State := State.launch Config.resetValues []

end Sys2Proof.Machine
end

