-- ==== Sys2Proof/Machine/Ops.lean ====
section
/-! DEFINITION. The named operations over memory, registers, flags, input and output. -/

namespace Sys2Proof.Machine

/-- What a meaning answers. -/
abbrev Result := Host.Outcome State Fault Refusal

/-! ### Memory -/

/-- The canonical form: addresses strictly rising from `lo` on and below 512, no entry equal to what an unlisted
address reads as. -/
def Memory.wfFrom : Nat → Memory → Bool
  | _, [] => true
  | lo, (k, v) :: m => decide (lo ≤ k) && decide (k < 512) && decide (v ≠ Config.unlistedByte) && wfFrom (k + 1) m

/-- The canonical form of a memory. -/
def Memory.wf (m : Memory) : Bool := Memory.wfFrom 0 m

/-- The byte at a key of the list, which is in rising order. -/
def Memory.readKey : Memory → Nat → Byte
  | [], _ => Config.unlistedByte
  | (k, v) :: m, a => if k = a then v else if a < k then Config.unlistedByte else readKey m a

/-- Puts a byte at a key of the list, or removes the entry where the byte is what an unlisted address reads as. -/
def Memory.writeKey : Memory → Nat → Byte → Memory
  | [], a, x => if x = Config.unlistedByte then [] else [(a, x)]
  | (k, v) :: m, a, x =>
    if k = a then (if x = Config.unlistedByte then m else (a, x) :: m)
    else if a < k then (if x = Config.unlistedByte then (k, v) :: m else (a, x) :: (k, v) :: m)
    else (k, v) :: writeKey m a x

/-- MemRead(addr, 1) of rule R34. -/
def Memory.read (m : Memory) (a : Addr) : Byte := m.readKey a.toNat

/-- MemWrite(addr, 1, v) of rule R34. -/
def Memory.write (m : Memory) (a : Addr) (v : Byte) : Memory := m.writeKey a.toNat v

/-- The address of an offset in the program area, bit 8 = 0 (rules R31 and R32). -/
def progAddr (off : Byte) : Addr := 0#1 ++ off

/-- The address of an offset in the data area, bit 8 = 1 (rules R31 and R32). -/
def dataAddr (off : Byte) : Addr := 1#1 ++ off

/-! ### Registers and flags -/

/-- Reads x[A] (rule R12). -/
def State.reg (s : State) : Reg → Byte
  | .acc => s.acc
  | .ix => s.ix

/-- x[A] <- v (rule R12). -/
def State.setReg (s : State) (a : Reg) (v : Byte) : State :=
  match a with
  | .acc => { s with acc := v }
  | .ix => { s with ix := v }

/-- pc <- v (rule R13). -/
def State.setPc (s : State) (v : Byte) : State := { s with pc := v }

/-- CF <- c alone (rules R84 and R85). -/
def State.setCf (s : State) (c : Bool) : State := { s with cf := c }

/-- VF, NF and ZF are written, CF is not (rule R17). -/
def State.setVnz (s : State) (v n z : Bool) : State := { s with vf := v, nf := n, zf := z }

/-- All four flags are written (rule R17). -/
def State.setFlags (s : State) (c v n z : Bool) : State := { s with cf := c, vf := v, nf := n, zf := z }

/-! ### Memory accesses of an instruction -/

/-- A data read of the current memory (rule R34). -/
def State.load (s : State) (a : Addr) : Byte := s.mem.read a

/-- A data write (rule R34). -/
def State.store (s : State) (a : Addr) (v : Byte) : State := { s with mem := s.mem.write a v }

/-! ### Input, output, run state -/

/-- OBUF <- v, and the event is appended to the output trace (rule R163). -/
def State.output (s : State) (v : Byte) : State :=
  { s with obuf := v, outTrace := s.outTrace ++ [(s.stepNo, v)] }

/-- The halted state (rule R22). IR keeps the first byte of the halting instruction: DESIGN CHOICE, unsafe, log entry
13; the spec says not to assume that IR survives HLT with a defined value (91_not_in_source.md N19). -/
def State.halt (s : State) : State := { s with run := .halted }

/-- The end of a step: the step number advances and the environment drives IBUF and the two flag signals anew for
the next step, free values each (rule R163, log entry 10). -/
def State.endStep (s : State) : State :=
  { s with
    stepNo := s.stepNo + 1
    ibuf := Config.ibufAt (s.stepNo + 1)
    ibufFlgIn := Config.ibufFlgAt (s.stepNo + 1)
    obufFlgIn := Config.obufFlgAt (s.stepNo + 1) }

/-! ### The one abnormal outcome -/

/-- `raise IllegalEncoding(b)` (rule R151). The hardware has no exception (rule R150), so no state is saved and
control goes nowhere. -/
def raiseIllegal (b : Byte) : Result := .fault (.illegalEncoding b)

/-! ### Fetch -/

/-- Fetch() of 00_scope.md section 6: the byte at offset pc of the program area, and pc incremented modulo 256
(rules R14 and R33). -/
def State.fetchByte (s : State) : Byte × State :=
  (s.mem.read (progAddr s.pc), s.setPc (s.pc + 1))

/-- Fetches and decodes one instruction (rule R55): the first byte goes to IR (rule R18), the second byte is fetched
when the format has one, and pc then points past the whole instruction. -/
def State.fetch (s : State) : Instr × State :=
  let (b, s₁) := s.fetchByte
  let s₂ := { s₁ with ir := b }
  match decodeFirst b with
  | .whole i => (i, s₂)
  | .needsSecond f =>
    let (d, s₃) := s₂.fetchByte
    (f d, s₃)

/-- Stores two bytes where the next instruction is fetched from, and makes the machine run. -/
def State.placeAtPc (s : State) (b d : Byte) : State :=
  { s with
    mem := (s.mem.write (progAddr s.pc) b).write (progAddr (s.pc + 1)) d
    run := .running }

end Sys2Proof.Machine
end

