-- ==== Sys2Proof/Machine/Flags.lean ====
section
/-! DEFINITION. The flag computations: the arithmetic of rule R136, the flags of a result, the branch conditions. -/

namespace Sys2Proof.Machine

/-- N: bit 7 of the result (rules R16 and R136). -/
def negFlag (r : Byte) : Bool := r[7]

/-- Z: the result is 0 (rules R16 and R136). -/
def zeroFlag (r : Byte) : Bool := decide (r = 0)

/-- The exact signed value does not fit in 8 bits (rule R136). -/
def overflows (t : Int) : Bool := decide (t < -128 ∨ 127 < t)

/-- What an addition or a subtraction gives: the 8-bit result, C and V; N and Z follow from the result. -/
structure ArithOut where
  r : Byte
  c : Bool
  v : Bool
  deriving DecidableEq, Repr

/-- The addition of rule R136, with carry in. -/
def addOut (a b : Byte) (cin : Bool) : ArithOut :=
  let sum := a.toNat + b.toNat + cin.toNat
  { r := BitVec.ofNat 8 sum
    c := decide (255 < sum)
    v := overflows (a.toInt + b.toInt + cin.toNat) }

/-- The subtraction of rule R136, with borrow in; C is the borrow out (decision D7, log entry 6). -/
def subOut (a b : Byte) (cin : Bool) : ArithOut :=
  let diff : Int := (a.toNat : Int) - b.toNat - cin.toNat
  { r := BitVec.ofInt 8 diff
    c := decide (diff < 0)
    v := overflows (a.toInt - b.toInt - cin.toNat) }

/-- V of SLA and RLA: the sign bit changes (rule R111, decision D5, log entry 4). -/
def shiftOverflow (v : Byte) : Bool := v[7] ^^ v[6]

/-- The sixteen conditions of rule R59. -/
inductive Cond where
  | always | vf | nz | z | zp | n | p | zn | ni | no | nc | c | ge | lt | gt | le
  deriving DecidableEq, Repr

/-- cond(cc) of rule R90. -/
def State.holds (s : State) : Cond → Bool
  | .always => true
  | .vf => s.vf
  | .nz => !s.zf
  | .z => s.zf
  | .zp => !s.nf
  | .n => s.nf
  | .p => !(s.nf || s.zf)
  | .zn => s.nf || s.zf
  | .ni => !s.ibufFlgIn
  | .no => s.obufFlgIn
  | .nc => !s.cf
  | .c => s.cf
  | .ge => !(s.vf ^^ s.nf)
  | .lt => s.vf ^^ s.nf
  | .gt => !((s.vf ^^ s.nf) || s.zf)
  | .le => (s.vf ^^ s.nf) || s.zf

end Sys2Proof.Machine
end

