-- ==== Sys2Proof/Machine/Operands.lean ====
section
/-! DEFINITION. The second operand of a type 4 instruction: its seven forms and the effective address. -/

namespace Sys2Proof.Machine

/-- The second operand op2 (rule R57). -/
inductive Operand2 where
  | reg (b : Reg)                   -- ACC, IX
  | imm (d : Byte)                  -- d
  | mem (m : MemMode) (d : Byte)    -- [d], (d), [IX+d], (IX+d)
  deriving DecidableEq, Repr

/-- EA(B, d) of rule R127 for the given IX; the sum is taken modulo 256, so it stays in its area. -/
def effectiveAddr (m : MemMode) (ix d : Byte) : Addr :=
  match m with
  | .absProg => progAddr d
  | .absData => dataAddr d
  | .idxProg => progAddr (ix + d)
  | .idxData => dataAddr (ix + d)

/-- The effective address in a state: IX is the one before the instruction (rule R126). -/
def State.ea (s : State) (m : MemMode) (d : Byte) : Addr := effectiveAddr m s.ix d

/-- val2 of rule R126. -/
def State.val2 (s : State) : Operand2 → Byte
  | .reg b => s.reg b
  | .imm d => d
  | .mem m d => s.load (s.ea m d)

end Sys2Proof.Machine
end

