-- ==== Sys2Proof/Machine/Alu.lean ====
section
/-! DEFINITION. The arithmetic and logic instructions: SBC, ADC, SUB, ADD, EOR, OR, AND, CMP. -/

namespace Sys2Proof.Machine

/-- ADC and SBC (rules R137 and R138): CF is the carry or borrow in, x[A] <- r, all four flags are written. -/
def arithCarry (f : Byte → Byte → Bool → ArithOut) (a : Reg) (o : Operand2) (s : State) : Result :=
  let x := f (s.reg a) (s.val2 o) s.cf
  .next ((s.setReg a x.r).setFlags x.c x.v (negFlag x.r) (zeroFlag x.r))

/-- ADD and SUB (rules R139 and R140): no carry in, x[A] <- r, CF is not written. -/
def arithPlain (f : Byte → Byte → Bool → ArithOut) (a : Reg) (o : Operand2) (s : State) : Result :=
  let x := f (s.reg a) (s.val2 o) false
  .next ((s.setReg a x.r).setVnz x.v (negFlag x.r) (zeroFlag x.r))

/-- EOR, OR and AND (rules R141 to R143): x[A] <- r, VF <- 0, CF is not written. -/
def logicTo (f : Byte → Byte → Byte) (a : Reg) (o : Operand2) (s : State) : Result :=
  let r := f (s.reg a) (s.val2 o)
  .next ((s.setReg a r).setVnz false (negFlag r) (zeroFlag r))

/-- CMP (rule R144): the flags of SUB, no register is written. -/
def compareTo (a : Reg) (o : Operand2) (s : State) : Result :=
  let x := subOut (s.reg a) (s.val2 o) false
  .next (s.setVnz x.v (negFlag x.r) (zeroFlag x.r))

/-- SBC with a register (rule R137). -/
def execSbcReg (a b : Reg) (s : State) : Result := arithCarry subOut a (.reg b) s

/-- SBC with an immediate (rule R137). -/
def execSbcImm (a : Reg) (d : Byte) (s : State) : Result := arithCarry subOut a (.imm d) s

/-- SBC with a memory byte (rule R137). -/
def execSbcMem (a : Reg) (m : MemMode) (d : Byte) (s : State) : Result := arithCarry subOut a (.mem m d) s

/-- ADC with a register (rule R138). -/
def execAdcReg (a b : Reg) (s : State) : Result := arithCarry addOut a (.reg b) s

/-- ADC with an immediate (rule R138). -/
def execAdcImm (a : Reg) (d : Byte) (s : State) : Result := arithCarry addOut a (.imm d) s

/-- ADC with a memory byte (rule R138). -/
def execAdcMem (a : Reg) (m : MemMode) (d : Byte) (s : State) : Result := arithCarry addOut a (.mem m d) s

/-- SUB with a register (rule R139). -/
def execSubReg (a b : Reg) (s : State) : Result := arithPlain subOut a (.reg b) s

/-- SUB with an immediate (rule R139). -/
def execSubImm (a : Reg) (d : Byte) (s : State) : Result := arithPlain subOut a (.imm d) s

/-- SUB with a memory byte (rule R139). -/
def execSubMem (a : Reg) (m : MemMode) (d : Byte) (s : State) : Result := arithPlain subOut a (.mem m d) s

/-- ADD with a register (rule R140). -/
def execAddReg (a b : Reg) (s : State) : Result := arithPlain addOut a (.reg b) s

/-- ADD with an immediate (rule R140). -/
def execAddImm (a : Reg) (d : Byte) (s : State) : Result := arithPlain addOut a (.imm d) s

/-- ADD with a memory byte (rule R140). -/
def execAddMem (a : Reg) (m : MemMode) (d : Byte) (s : State) : Result := arithPlain addOut a (.mem m d) s

/-- EOR with a register (rule R141). -/
def execEorReg (a b : Reg) (s : State) : Result := logicTo (· ^^^ ·) a (.reg b) s

/-- EOR with an immediate (rule R141). -/
def execEorImm (a : Reg) (d : Byte) (s : State) : Result := logicTo (· ^^^ ·) a (.imm d) s

/-- EOR with a memory byte (rule R141). -/
def execEorMem (a : Reg) (m : MemMode) (d : Byte) (s : State) : Result := logicTo (· ^^^ ·) a (.mem m d) s

/-- OR with a register (rule R142). -/
def execOrReg (a b : Reg) (s : State) : Result := logicTo (· ||| ·) a (.reg b) s

/-- OR with an immediate (rule R142). -/
def execOrImm (a : Reg) (d : Byte) (s : State) : Result := logicTo (· ||| ·) a (.imm d) s

/-- OR with a memory byte (rule R142). -/
def execOrMem (a : Reg) (m : MemMode) (d : Byte) (s : State) : Result := logicTo (· ||| ·) a (.mem m d) s

/-- AND with a register (rule R143). -/
def execAndReg (a b : Reg) (s : State) : Result := logicTo (· &&& ·) a (.reg b) s

/-- AND with an immediate (rule R143). -/
def execAndImm (a : Reg) (d : Byte) (s : State) : Result := logicTo (· &&& ·) a (.imm d) s

/-- AND with a memory byte (rule R143). -/
def execAndMem (a : Reg) (m : MemMode) (d : Byte) (s : State) : Result := logicTo (· &&& ·) a (.mem m d) s

/-- CMP with a register (rule R144). -/
def execCmpReg (a b : Reg) (s : State) : Result := compareTo a (.reg b) s

/-- CMP with an immediate (rule R144). -/
def execCmpImm (a : Reg) (d : Byte) (s : State) : Result := compareTo a (.imm d) s

/-- CMP with a memory byte (rule R144). -/
def execCmpMem (a : Reg) (m : MemMode) (d : Byte) (s : State) : Result := compareTo a (.mem m d) s

end Sys2Proof.Machine
end

