-- ==== Sys2Proof/Machine/Branch.lean ====
section
/-! DEFINITION. Type 2: the sixteen branches Bcc. -/

namespace Sys2Proof.Machine

/-- Bcc (rule R90): pc <- d when the condition holds; else pc stays, past both bytes. Nothing else changes. -/
def branchIf (taken : Bool) (d : Byte) (s : State) : Result :=
  .next (s.setPc (if taken then d else s.pc))

/-- BA (rule R91). -/
def execBa (d : Byte) (s : State) : Result := branchIf (s.holds .always) d s

/-- BVF (rule R92). -/
def execBvf (d : Byte) (s : State) : Result := branchIf (s.holds .vf) d s

/-- BNZ (rule R93). -/
def execBnz (d : Byte) (s : State) : Result := branchIf (s.holds .nz) d s

/-- BZ (rule R94). -/
def execBz (d : Byte) (s : State) : Result := branchIf (s.holds .z) d s

/-- BZP (rule R95). -/
def execBzp (d : Byte) (s : State) : Result := branchIf (s.holds .zp) d s

/-- BN (rule R96). -/
def execBn (d : Byte) (s : State) : Result := branchIf (s.holds .n) d s

/-- BP (rule R97). -/
def execBp (d : Byte) (s : State) : Result := branchIf (s.holds .p) d s

/-- BZN (rule R98). -/
def execBzn (d : Byte) (s : State) : Result := branchIf (s.holds .zn) d s

/-- BNI (rule R99). -/
def execBni (d : Byte) (s : State) : Result := branchIf (s.holds .ni) d s

/-- BNO (rule R100). -/
def execBno (d : Byte) (s : State) : Result := branchIf (s.holds .no) d s

/-- BNC (rule R101). -/
def execBnc (d : Byte) (s : State) : Result := branchIf (s.holds .nc) d s

/-- BC (rule R102). -/
def execBc (d : Byte) (s : State) : Result := branchIf (s.holds .c) d s

/-- BGE (rule R103). -/
def execBge (d : Byte) (s : State) : Result := branchIf (s.holds .ge) d s

/-- BLT (rule R104). -/
def execBlt (d : Byte) (s : State) : Result := branchIf (s.holds .lt) d s

/-- BGT (rule R105). -/
def execBgt (d : Byte) (s : State) : Result := branchIf (s.holds .gt) d s

/-- BLE (rule R106). -/
def execBle (d : Byte) (s : State) : Result := branchIf (s.holds .le) d s

end Sys2Proof.Machine
end

