-- ==== Sys2Proof/Machine/Control.lean ====
section
/-! DEFINITION. Type 1: NOP, HLT, OUT, IN, RCF, SCF, and the unused code 0101----. -/

namespace Sys2Proof.Machine

/-- NOP (rule R80): pc was moved by the fetch, nothing else changes. -/
def execNop (s : State) : Result := .next s

/-- HLT (rule R81): the run state becomes halted; what IR then holds is log entry 13. -/
def execHlt (s : State) : Result := .next s.halt

/-- OUT (rules R82 and R163): OBUF <- ACC, and the event joins the output trace. -/
def execOut (s : State) : Result := .next (s.output s.acc)

/-- IN (rules R83 and R163): ACC <- IBUF, the value the environment presents at this step; no flag is written. -/
def execIn (s : State) : Result := .next (s.setReg .acc s.ibuf)

/-- RCF (rule R84). -/
def execRcf (s : State) : Result := .next (s.setCf false)

/-- SCF (rule R85). -/
def execScf (s : State) : Result := .next (s.setCf true)

/-- The unused code 0x50 to 0x5F (rule R63): runs as HLT; the fault stands for the parameter `unused_5x_is_hlt` set
to false (decision D9, log entry 8). The fetched byte is in IR. -/
def execUnused5x (s : State) : Result :=
  if Config.unused5xIsHlt then .next s.halt else raiseIllegal s.ir

end Sys2Proof.Machine
end

