-- ==== Sys2Proof/Machine/LoadStore.lean ====
section
/-! DEFINITION. LD and ST. -/

namespace Sys2Proof.Machine

/-- LD (rule R128): x[A] <- val2; no flag is written. -/
def loadTo (a : Reg) (o : Operand2) (s : State) : Result := .next (s.setReg a (s.val2 o))

/-- LD with a register (rule R128). -/
def execLdReg (a b : Reg) (s : State) : Result := loadTo a (.reg b) s

/-- LD with an immediate (rule R128). -/
def execLdImm (a : Reg) (d : Byte) (s : State) : Result := loadTo a (.imm d) s

/-- LD from memory (rule R128). -/
def execLdMem (a : Reg) (m : MemMode) (d : Byte) (s : State) : Result := loadTo a (.mem m d) s

/-- ST with B = 0xx (rules R64, R129 and R151): the hardware may do anything, and no state is given. -/
def execStIllegal (a : Reg) (b : BitVec 2) (_s : State) : Result := raiseIllegal (illegalStByte a b)

/-- ST (rule R129): the byte at EA(B, d) <- x[A]; the register and the flags stay. -/
def execStMem (a : Reg) (m : MemMode) (d : Byte) (s : State) : Result :=
  .next (s.store (s.ea m d) (s.reg a))

end Sys2Proof.Machine
end

