-- ==== Sys2Proof/Machine/Shift.lean ====
section
/-! DEFINITION. Type 3: the shifts Ssm and the rotates Rsm, by one bit. -/

namespace Sys2Proof.Machine

/-- What the eight share (rules R110 and R111): r is written to x[A], the bit that left goes to CF, N and Z come from
r, and VF is given. -/
def shiftTo (a : Reg) (r : Byte) (out vf : Bool) (s : State) : Result :=
  .next ((s.setReg a r).setFlags out vf (negFlag r) (zeroFlag r))

/-- A right shift of `v` with `top` entering at bit 7; bit 0 leaves, VF <- 0 (rules R112, R114, R116, R118). -/
def shiftRight (a : Reg) (top : Bool) (s : State) : Result :=
  let v := s.reg a
  shiftTo a (BitVec.ofBool top ++ v.extractLsb' 1 7) v[0] false s

/-- A left shift of `v` with `low` entering at bit 0; bit 7 leaves (rules R113, R115, R117, R119). -/
def shiftLeft (a : Reg) (low vf : Bool) (s : State) : Result :=
  let v := s.reg a
  shiftTo a (v.extractLsb' 0 7 ++ BitVec.ofBool low) v[7] vf s

/-- SRA (rule R112): the sign bit is copied. -/
def execSra (a : Reg) (s : State) : Result := shiftRight a (s.reg a)[7] s

/-- SLA (rule R113): 0 enters; VF by decision D5 (log entry 4). -/
def execSla (a : Reg) (s : State) : Result := shiftLeft a false (shiftOverflow (s.reg a)) s

/-- SRL (rule R114): 0 enters. -/
def execSrl (a : Reg) (s : State) : Result := shiftRight a false s

/-- SLL (rule R115): 0 enters. -/
def execSll (a : Reg) (s : State) : Result := shiftLeft a false false s

/-- RRA (rule R116): the old CF enters. -/
def execRra (a : Reg) (s : State) : Result := shiftRight a s.cf s

/-- RLA (rule R117): the old CF enters; VF by decision D5 (log entry 4). -/
def execRla (a : Reg) (s : State) : Result := shiftLeft a s.cf (shiftOverflow (s.reg a)) s

/-- RRL (rule R118): bit 0 wraps round. -/
def execRrl (a : Reg) (s : State) : Result := shiftRight a (s.reg a)[0] s

/-- RLL (rule R119): bit 7 wraps round. -/
def execRll (a : Reg) (s : State) : Result := shiftLeft a (s.reg a)[7] false s

end Sys2Proof.Machine
end

