-- ==== Sys2Proof/Machine/Dispatch.lean ====
section
/-! DEFINITION. exec: one arm per constructor of Instr, each one call of its meaning. -/

namespace Sys2Proof.Machine

def exec (i : Instr) (s : State) : Host.Outcome State Fault Refusal :=
  match i with
  | .nop => Sys2Proof.Machine.execNop s
  | .hlt => Sys2Proof.Machine.execHlt s
  | .out => Sys2Proof.Machine.execOut s
  | .inp => Sys2Proof.Machine.execIn s
  | .rcf => Sys2Proof.Machine.execRcf s
  | .scf => Sys2Proof.Machine.execScf s
  | .unused5x => Sys2Proof.Machine.execUnused5x s
  | .ba d => Sys2Proof.Machine.execBa d s
  | .bvf d => Sys2Proof.Machine.execBvf d s
  | .bnz d => Sys2Proof.Machine.execBnz d s
  | .bz d => Sys2Proof.Machine.execBz d s
  | .bzp d => Sys2Proof.Machine.execBzp d s
  | .bn d => Sys2Proof.Machine.execBn d s
  | .bp d => Sys2Proof.Machine.execBp d s
  | .bzn d => Sys2Proof.Machine.execBzn d s
  | .bni d => Sys2Proof.Machine.execBni d s
  | .bno d => Sys2Proof.Machine.execBno d s
  | .bnc d => Sys2Proof.Machine.execBnc d s
  | .bc d => Sys2Proof.Machine.execBc d s
  | .bge d => Sys2Proof.Machine.execBge d s
  | .blt d => Sys2Proof.Machine.execBlt d s
  | .bgt d => Sys2Proof.Machine.execBgt d s
  | .ble d => Sys2Proof.Machine.execBle d s
  | .sra a => Sys2Proof.Machine.execSra a s
  | .sla a => Sys2Proof.Machine.execSla a s
  | .srl a => Sys2Proof.Machine.execSrl a s
  | .sll a => Sys2Proof.Machine.execSll a s
  | .rra a => Sys2Proof.Machine.execRra a s
  | .rla a => Sys2Proof.Machine.execRla a s
  | .rrl a => Sys2Proof.Machine.execRrl a s
  | .rll a => Sys2Proof.Machine.execRll a s
  | .ldReg a b => Sys2Proof.Machine.execLdReg a b s
  | .ldImm a d => Sys2Proof.Machine.execLdImm a d s
  | .ldMem a m d => Sys2Proof.Machine.execLdMem a m d s
  | .stIllegal a b => Sys2Proof.Machine.execStIllegal a b s
  | .stMem a m d => Sys2Proof.Machine.execStMem a m d s
  | .sbcReg a b => Sys2Proof.Machine.execSbcReg a b s
  | .sbcImm a d => Sys2Proof.Machine.execSbcImm a d s
  | .sbcMem a m d => Sys2Proof.Machine.execSbcMem a m d s
  | .adcReg a b => Sys2Proof.Machine.execAdcReg a b s
  | .adcImm a d => Sys2Proof.Machine.execAdcImm a d s
  | .adcMem a m d => Sys2Proof.Machine.execAdcMem a m d s
  | .subReg a b => Sys2Proof.Machine.execSubReg a b s
  | .subImm a d => Sys2Proof.Machine.execSubImm a d s
  | .subMem a m d => Sys2Proof.Machine.execSubMem a m d s
  | .addReg a b => Sys2Proof.Machine.execAddReg a b s
  | .addImm a d => Sys2Proof.Machine.execAddImm a d s
  | .addMem a m d => Sys2Proof.Machine.execAddMem a m d s
  | .eorReg a b => Sys2Proof.Machine.execEorReg a b s
  | .eorImm a d => Sys2Proof.Machine.execEorImm a d s
  | .eorMem a m d => Sys2Proof.Machine.execEorMem a m d s
  | .orReg a b => Sys2Proof.Machine.execOrReg a b s
  | .orImm a d => Sys2Proof.Machine.execOrImm a d s
  | .orMem a m d => Sys2Proof.Machine.execOrMem a m d s
  | .andReg a b => Sys2Proof.Machine.execAndReg a b s
  | .andImm a d => Sys2Proof.Machine.execAndImm a d s
  | .andMem a m d => Sys2Proof.Machine.execAndMem a m d s
  | .cmpReg a b => Sys2Proof.Machine.execCmpReg a b s
  | .cmpImm a d => Sys2Proof.Machine.execCmpImm a d s
  | .cmpMem a m d => Sys2Proof.Machine.execCmpMem a m d s

end Sys2Proof.Machine
end

