-- ==== Sys2Proof/Machine/Step.lean ====
section
/-! DEFINITION. One step of the machine: one whole instruction (rule R26). -/

namespace Sys2Proof.Machine

/-- One step (rule R26): fetch, decode, execute; then the environment drives its inputs for the next step. A halted
state has no step (rule R176). -/
def step (s : State) : Host.Outcome State Fault Refusal :=
  match s.run with
  | .halted => .fault .halted
  | .running =>
    match exec s.fetch.1 s.fetch.2 with
    | .next t => .next t.endStep
    | .fault r => .fault r
    | .refused r => .refused r

/-- `s` with an instruction given as one number stored where `step` fetches next, and running. -/
def State.withFetchWord (s : State) (nbits w : Nat) : State :=
  s.placeAtPc (tableBytes nbits w).1 (tableBytes nbits w).2

end Sys2Proof.Machine
end

