-- ==== Sys2Proof/Machine/Assembler.lean ====
section
/-! DEFINITION. The assembler's source language and listing (30_encoding.md section 5, rules R66 to R71). What the
sources do not show of it is refused: the assembler answers none (log entry 21). -/

namespace Sys2Proof.Asm

open Sys2Proof.Machine

/-- A source line, or a part of one. -/
abbrev Text := List Char

/-! ### Words and marks of a line -/

/-- A word (a name, mnemonic, register or number) or a mark. -/
inductive Token where
  | word (w : Text)
  | colon | comma | plus
  | openBracket | closeBracket
  | openParen | closeParen
  deriving DecidableEq, Repr

/-- The text before the first `*`, which begins a comment (rule R66). -/
def beforeComment (l : Text) : Text := l.takeWhile (· ≠ '*')

/-- The letters and digits of a word: capitals, as in every example (rule R66). -/
def isWordChar (c : Char) : Bool := c.isUpper || c.isDigit

/-- The tokens a character other than a letter or digit stands for: none for a blank. -/
def marks (c : Char) : Option (List Token) :=
  match c with
  | ' ' | '\t' => some []
  | ':' => some [.colon]
  | ',' => some [.comma]
  | '+' => some [.plus]
  | '[' => some [.openBracket]
  | ']' => some [.closeBracket]
  | '(' => some [.openParen]
  | ')' => some [.closeParen]
  | _ => none

/-- A finished word as a token, nothing where there is none. -/
def wordToken (w : Text) : List Token := if w = [] then [] else [.word w]

/-- The tokens of a text, `w` being the part read of an unfinished word. -/
def lexFrom (w : Text) : Text → Option (List Token)
  | [] => some (wordToken w)
  | c :: cs =>
    if isWordChar c then lexFrom (w ++ [c]) cs
    else do
      let ts ← marks c
      let rest ← lexFrom [] cs
      return wordToken w ++ ts ++ rest

/-! ### Numbers and sums (rule R67) -/

/-- The value of a digit in bases up to 16. -/
def digitVal (c : Char) : Nat := if c.isDigit then c.toNat - '0'.toNat else c.toNat - 'A'.toNat + 10

/-- The digits of a number in base `b`, the highest first; none where one is no digit of that base. -/
def digits (b : Nat) (acc : Nat) : Text → Option Nat
  | [] => some acc
  | c :: cs => if isWordChar c && decide (digitVal c < b) then digits b (b * acc + digitVal c) cs else none

/-- A number begins with a digit; it is hexadecimal if it ends in `H`, else decimal (rule R67). -/
def number (w : Text) : Option Nat :=
  match w with
  | [] => none
  | c :: cs =>
    if !c.isDigit then none
    else if (c :: cs).getLast? = some 'H' then digits 16 0 (c :: cs).dropLast
    else digits 10 0 (c :: cs)

/-- One summand of an operand. -/
inductive Term where
  | num (n : Nat)
  | name (w : Text)
  deriving DecidableEq, Repr

/-- A register's name (rule R68). -/
def register (w : Text) : Option Reg :=
  if w = ['A', 'C', 'C'] then some .acc else if w = ['I', 'X'] then some .ix else none

/-- A name begins with a letter and is no register. -/
def isName (w : Text) : Bool := w.head?.any Char.isUpper && (register w).isNone

/-- A word as a summand. -/
def term (w : Text) : Option Term :=
  match number w with
  | some n => some (.num n)
  | none => if isName w then some (.name w) else none

/-- A sum of names and numbers (rule R67). -/
def sum : List Token → Option (List Term)
  | [.word w] => do return [← term w]
  | .word w :: .plus :: ts => do return (← term w) :: (← sum ts)
  | _ => none

/-- The values of names: `EQU` values and the addresses of labels (rule R67). -/
abbrev Env := Text → Option Nat

/-- The value of a sum; none where a name has none or the sum does not fit in 8 bits. -/
def value (env : Env) (e : List Term) : Option Byte := do
  let vs ← e.mapM fun
    | .num n => some n
    | .name w => env w
  if vs.sum < 256 then some (BitVec.ofNat 8 vs.sum) else none

/-! ### Operands (rule R68) -/

/-- An operand as it is written: a register, an immediate or a branch address, or one of the four memory forms. -/
inductive Operand where
  | reg (r : Reg)
  | imm (e : List Term)
  | mem (m : MemMode) (e : List Term)
  deriving DecidableEq, Repr

/-- What stands between brackets or parentheses: `IX+` and a sum, or a sum. -/
def memOperand (idx abs : MemMode) (inner : List Token) : Option Operand :=
  match inner with
  | .word ['I', 'X'] :: .plus :: ts => (sum ts).map (.mem idx)
  | ts => (sum ts).map (.mem abs)

/-- The seven forms: square brackets for the program area, parentheses for the data area. -/
def operand (ts : List Token) : Option Operand :=
  match ts with
  | [.word w] =>
    match register w with
    | some r => some (.reg r)
    | none => (sum [.word w]).map .imm
  | .openBracket :: inner =>
    if inner.getLast? = some .closeBracket then memOperand .idxProg .absProg inner.dropLast else none
  | .openParen :: inner =>
    if inner.getLast? = some .closeParen then memOperand .idxData .absData inner.dropLast else none
  | ts => (sum ts).map .imm

/-- Operands are separated by commas (rule R66). -/
def splitCommas : List Token → List (List Token)
  | [] => [[]]
  | .comma :: ts => [] :: splitCommas ts
  | t :: ts =>
    match splitCommas ts with
    | [] => [[t]]
    | p :: ps => (t :: p) :: ps

/-- The operands after a mnemonic or directive. -/
def operands (ts : List Token) : Option (List Operand) :=
  if ts = [] then some [] else (splitCommas ts).mapM operand

/-! ### Mnemonics (rules R61, R68 and R71) -/

/-- What operands a mnemonic takes, and what it assembles to. -/
inductive Shape where
  | plain (i : Instr)
  | branch (f : Byte → Instr)
  | shift (f : Reg → Instr)
  | general (reg : Reg → Reg → Instr) (imm : Reg → Byte → Instr) (mem : Reg → MemMode → Byte → Instr)
  | store (mem : Reg → MemMode → Byte → Instr)

/-- The mnemonics without an operand. -/
def plainMnemonics : List (Text × Shape) :=
  [("NOP".toList, .plain .nop), ("HLT".toList, .plain .hlt), ("OUT".toList, .plain .out), ("IN".toList, .plain .inp),
   ("RCF".toList, .plain .rcf), ("SCF".toList, .plain .scf)]

/-- The branches. -/
def branchMnemonics : List (Text × Shape) :=
  [("BA".toList, .branch .ba), ("BVF".toList, .branch .bvf), ("BNZ".toList, .branch .bnz), ("BZ".toList, .branch .bz),
   ("BZP".toList, .branch .bzp), ("BN".toList, .branch .bn), ("BP".toList, .branch .bp), ("BZN".toList, .branch .bzn),
   ("BNI".toList, .branch .bni), ("BNO".toList, .branch .bno), ("BNC".toList, .branch .bnc), ("BC".toList, .branch .bc),
   ("BGE".toList, .branch .bge), ("BLT".toList, .branch .blt), ("BGT".toList, .branch .bgt), ("BLE".toList, .branch .ble)]

/-- The shifts and rotates. -/
def shiftMnemonics : List (Text × Shape) :=
  [("SRA".toList, .shift .sra), ("SLA".toList, .shift .sla), ("SRL".toList, .shift .srl), ("SLL".toList, .shift .sll),
   ("RRA".toList, .shift .rra), ("RLA".toList, .shift .rla), ("RRL".toList, .shift .rrl), ("RLL".toList, .shift .rll)]

/-- The mnemonics with two operands. -/
def twoOperandMnemonics : List (Text × Shape) :=
  [("LD".toList, .general .ldReg .ldImm .ldMem), ("ST".toList, .store .stMem),
   ("SBC".toList, .general .sbcReg .sbcImm .sbcMem), ("ADC".toList, .general .adcReg .adcImm .adcMem),
   ("SUB".toList, .general .subReg .subImm .subMem), ("ADD".toList, .general .addReg .addImm .addMem),
   ("EOR".toList, .general .eorReg .eorImm .eorMem), ("OR".toList, .general .orReg .orImm .orMem),
   ("AND".toList, .general .andReg .andImm .andMem), ("CMP".toList, .general .cmpReg .cmpImm .cmpMem)]

/-- The 40 mnemonics; the unused code and the illegal ST have none (rules R63 and R64). -/
def mnemonics : List (Text × Shape) :=
  plainMnemonics ++ branchMnemonics ++ shiftMnemonics ++ twoOperandMnemonics

/-- What a mnemonic means. -/
def shapeOf (mn : Text) : Option Shape := mnemonics.lookup mn

/-- The one instruction a mnemonic and its operands assemble to (rules R68 and R71). -/
def toInstr (env : Env) (mn : Text) (ops : List Operand) : Option Instr := do
  match ← shapeOf mn, ops with
  | .plain i, [] => some i
  | .branch f, [.imm e] => return f (← value env e)
  | .shift f, [.reg a] => some (f a)
  | .general f _ _, [.reg a, .reg b] => some (f a b)
  | .general _ f _, [.reg a, .imm e] => return f a (← value env e)
  | .general _ _ f, [.reg a, .mem m e] => return f a m (← value env e)
  | .store f, [.reg a, .mem m e] => return f a m (← value env e)
  | _, _ => none

/-! ### Lines (rules R66 and R69) -/

/-- What a line holds beside its label. -/
inductive Body where
  | blank
  | instr (mn : Text) (ops : List Operand)
  | equ (e : List Term)
  | prog (e : List Term)
  | finish
  deriving DecidableEq, Repr

/-- A line of the source: an optional label, and what stands after it. -/
structure Line where
  label : Option Text
  body  : Body
  deriving DecidableEq, Repr

/-- What stands after the label: a directive (rule R69) or a mnemonic with its operands. -/
def parseBody : List Token → Option Body
  | .word w :: ts =>
    if w = "EQU".toList then (sum ts).map .equ
    else if w = "PROG".toList then (sum ts).map .prog
    else if w = "END".toList then (if ts = [] then some .finish else none)
    else (operands ts).map (.instr w)
  | _ => none

/-- A line: nothing but a comment, or an optional label and a body (rule R66). A label on the line of `END` is refused:
`END` emits no byte and the listings show no address for it, so no rule says what the name would stand for (DESIGN
CHOICE, log entry 21). -/
def parseLine (l : Text) : Option Line := do
  match ← lexFrom [] (beforeComment l) with
  | [] => some ⟨none, .blank⟩
  | .word w :: .colon :: ts =>
    let b ← parseBody ts
    if isName w && decide (b ≠ .finish) then some ⟨some w, b⟩ else none
  | ts => return ⟨none, ← parseBody ts⟩

/-- The bytes a body emits (rules R69 and R71). -/
def emit (env : Env) : Body → Option (List Byte)
  | .instr mn ops => (toInstr env mn ops).map encode
  | .prog e => (value env e).map ([·])
  | _ => some []

/-! ### A whole source -/

/-- The lines of a source, each with its text: `END` ends the source (rule R69), so no line after it is read. -/
def parseSource : List Text → Option (List (Line × Text))
  | [] => some []
  | t :: ts => do
    let l ← parseLine t
    if l.body = .finish then return [(l, t)]
    else return (l, t) :: (← parseSource ts)

/-- The value a name has in a table. -/
def lookupIn (tbl : List (Text × Nat)) : Env := fun w => tbl.lookup w

/-- The value of every name: an `EQU` value from the names above it, or the address of the labelled line, `pc` being
the address reached. No length depends on a value, so every name counts as 0 for the lengths. `END` ends the source and
has no label here: `parseLine` refuses one (DESIGN CHOICE, log entry 21). -/
def symbols (tbl : List (Text × Nat)) (pc : Nat) : List Line → Option (List (Text × Nat))
  | [] => some tbl
  | ⟨label, body⟩ :: ls =>
    match body with
    | .finish => some tbl
    | .equ e => do
      let w ← label
      let v ← value (lookupIn tbl) e
      if (tbl.lookup w).isSome then none else symbols ((w, v.toNat) :: tbl) pc ls
    | _ => do
      let bs ← emit (fun _ => some 0) body
      if 256 < pc + bs.length then none
      else
        match label with
        | none => symbols tbl (pc + bs.length) ls
        | some w => if (tbl.lookup w).isSome then none else symbols ((w, pc) :: tbl) (pc + bs.length) ls

/-- A line of the listing (rule R70): the address column, the bytes, the source line. -/
structure Entry where
  addr   : Option Nat
  bytes  : List Byte
  source : Text
  deriving DecidableEq, Repr

/-- The listing from the lines with their texts; an `EQU` line shows the value in the address column, a comment and
`END` show none (rule R70). -/
def entries (env : Env) (pc : Nat) : List (Line × Text) → Option (List Entry)
  | [] => some []
  | (⟨_, body⟩, src) :: ls =>
    match body with
    | .finish => some [⟨none, [], src⟩]
    | .blank => do return ⟨none, [], src⟩ :: (← entries env pc ls)
    | .equ e => do
      let v ← value env e
      return ⟨some v.toNat, [], src⟩ :: (← entries env pc ls)
    | _ => do
      let bs ← emit env body
      return ⟨some pc, bs, src⟩ :: (← entries env (pc + bs.length) ls)

/-- The listing of a source, assembled from address 00 (rule R69). -/
def listing (src : List Text) : Option (List Entry) := do
  let ls ← parseSource src
  let tbl ← symbols [] 0 (ls.map (·.1))
  entries (lookupIn tbl) 0 ls

/-- The program's bytes, from program-area address 00 on. -/
def assemble (src : List Text) : Option (List Byte) := do
  let es ← listing src
  return es.flatMap (·.bytes)

/-- A program's bytes put into the program area from an offset on (rule R164). -/
def place (m : Memory) (off : Byte) : List Byte → Memory
  | [] => m
  | b :: bs => place (m.write (progAddr off) b) (off + 1) bs

/-! ### The printed listing (rule R70) -/

/-- A hexadecimal digit. -/
def hexDigit (n : Nat) : Char := if n < 10 then Char.ofNat ('0'.toNat + n) else Char.ofNat ('A'.toNat + (n - 10))

/-- Two hexadecimal digits, without suffix. -/
def hex2 (n : Nat) : Text := [hexDigit (n / 16 % 16), hexDigit (n % 16)]

/-- A line of the listing as it is printed. -/
def printEntry (e : Entry) : Text :=
  match e.addr with
  | none => e.source
  | some a => hex2 a ++ " : ".toList ++ (e.bytes.flatMap fun b => hex2 b.toNat ++ [' ']) ++ e.source

end Sys2Proof.Asm
end

