-- ==== Sys2Proof/Safety.lean ====
section
/-! DEFINITION. What counts as a well-formed state and as a safe state, in the terms the statements use. -/

namespace Sys2Proof.Machine

/-- The events of an output trace carry rising step numbers, all from `lo` on and below `k`. -/
def traceInOrder (k : Nat) : Nat → List (Nat × Byte) → Bool
  | _, [] => true
  | lo, (n, _) :: rest => decide (lo ≤ n) && decide (n < k) && traceInOrder k (n + 1) rest

/-- OBUF holds the last value of the output trace, where there is one (rules R20 and R163). -/
def State.obufIsLastOutput (s : State) : Bool :=
  match s.outTrace.getLast? with
  | none => true
  | some e => decide (s.obuf = e.2)

/-- A well-formed state: memory is in canonical form, the output trace is in order of step numbers already past,
and OBUF is the last value output. -/
def State.wf (s : State) : Bool :=
  s.mem.wf && traceInOrder s.stepNo 0 s.outTrace && s.obufIsLastOutput

/-- No result is both negative and zero: NF and ZF are not both 1 (rule R136: both come from one 8-bit result). -/
def State.signOk (s : State) : Bool := !(s.nf && s.zf)

/-- A safe state: its next step is no illegal ST, the one thing a claim about a run must show it never reaches
(rule R151). A halted state is safe: its run has ended (rule R176). -/
def State.safe (s : State) : Prop := ∀ b, step s ≠ .fault (.illegalEncoding b)

end Sys2Proof.Machine
end

