-- ==== Sys2Proof/Certificates/Slice0/Obligations.lean ====
section
/-! DEFINITION. The statements for the provers, after the few words of their own that they are written in. -/

namespace Sys2Proof.Claims

open Sys2Proof.Machine

/-! ### The words of the statements, written from the spec and apart from the model's own operations -/

/-- The value of x[A]. -/
def regOf (s : State) : Reg → Byte
  | .acc => s.acc
  | .ix => s.ix

/-- The value of op2 (rule R126), a memory operand read at the model's effective address. -/
def op2Of (s : State) : Operand2 → Byte
  | .reg b => regOf s b
  | .imm d => d
  | .mem m d => s.mem.read (s.ea m d)

/-- x[A] holds `r` in `t` and the other register is as in `s`. -/
def RegWritten (a : Reg) (r : Byte) (s t : State) : Prop :=
  match a with
  | .acc => t.acc = r ∧ t.ix = s.ix
  | .ix => t.acc = s.acc ∧ t.ix = r

def SameRegs (s t : State) : Prop := t.acc = s.acc ∧ t.ix = s.ix

def SameFlags (s t : State) : Prop := t.cf = s.cf ∧ t.vf = s.vf ∧ t.nf = s.nf ∧ t.zf = s.zf

/-- Every byte of memory reads as before. -/
def SameMemory (s t : State) : Prop := ∀ x, t.mem.read x = s.mem.read x

/-- The state but for the registers, the flags, memory and PC: IR, the buffers and signals, the run state, the output
trace, the step number. -/
def SameSystem (s t : State) : Prop :=
  t.ir = s.ir ∧ t.obuf = s.obuf ∧ t.ibuf = s.ibuf ∧ t.ibufFlgIn = s.ibufFlgIn ∧ t.obufFlgIn = s.obufFlgIn ∧
    t.run = s.run ∧ t.outTrace = s.outTrace ∧ t.stepNo = s.stepNo

/-- Everything but the registers and the flags is as before. -/
def SameBeyondRegs (s t : State) : Prop := t.pc = s.pc ∧ SameMemory s t ∧ SameSystem s t

/-- N and Z of an 8-bit result (rule R16): bit 7 is 1 from 128 on. -/
def ResultFlags (r : Byte) (t : State) : Prop := (t.nf = true ↔ 128 ≤ r.toNat) ∧ (t.zf = true ↔ r.toNat = 0)

/-- A level or flag as a number. -/
def bit (b : Bool) : Nat := if b then 1 else 0

/-- The eight instructions of 44_type4_alu.md. -/
inductive AluOp where
  | sbc | adc | sub | add | eor | orr | andd | cmp
  deriving DecidableEq, Repr

/-- An arithmetic or logic instruction with any of its operand forms. -/
def aluInstr (op : AluOp) (a : Reg) (x : Operand2) : Instr :=
  match op, x with
  | .sbc, .reg b => .sbcReg a b
  | .sbc, .imm d => .sbcImm a d
  | .sbc, .mem m d => .sbcMem a m d
  | .adc, .reg b => .adcReg a b
  | .adc, .imm d => .adcImm a d
  | .adc, .mem m d => .adcMem a m d
  | .sub, .reg b => .subReg a b
  | .sub, .imm d => .subImm a d
  | .sub, .mem m d => .subMem a m d
  | .add, .reg b => .addReg a b
  | .add, .imm d => .addImm a d
  | .add, .mem m d => .addMem a m d
  | .eor, .reg b => .eorReg a b
  | .eor, .imm d => .eorImm a d
  | .eor, .mem m d => .eorMem a m d
  | .orr, .reg b => .orReg a b
  | .orr, .imm d => .orImm a d
  | .orr, .mem m d => .orMem a m d
  | .andd, .reg b => .andReg a b
  | .andd, .imm d => .andImm a d
  | .andd, .mem m d => .andMem a m d
  | .cmp, .reg b => .cmpReg a b
  | .cmp, .imm d => .cmpImm a d
  | .cmp, .mem m d => .cmpMem a m d

/-- LD with any of its operand forms. -/
def ldInstr (a : Reg) : Operand2 → Instr
  | .reg b => .ldReg a b
  | .imm d => .ldImm a d
  | .mem m d => .ldMem a m d

/-- The branch with a condition. -/
def branchInstr : Cond → Byte → Instr
  | .always => .ba
  | .vf => .bvf
  | .nz => .bnz
  | .z => .bz
  | .zp => .bzp
  | .n => .bn
  | .p => .bp
  | .zn => .bzn
  | .ni => .bni
  | .no => .bno
  | .nc => .bnc
  | .c => .bc
  | .ge => .bge
  | .lt => .blt
  | .gt => .bgt
  | .le => .ble

/-- The first byte of the branch with a condition (rule R59). -/
def branchByte : Cond → Byte
  | .always => 0x30
  | .vf => 0x38
  | .nz => 0x31
  | .z => 0x39
  | .zp => 0x32
  | .n => 0x3A
  | .p => 0x33
  | .zn => 0x3B
  | .ni => 0x34
  | .no => 0x3C
  | .nc => 0x35
  | .c => 0x3D
  | .ge => 0x36
  | .lt => 0x3E
  | .gt => 0x37
  | .le => 0x3F

/-- The condition for branching (rule R59). -/
def CondMet (s : State) : Cond → Prop
  | .always => True
  | .vf => s.vf = true
  | .nz => s.zf = false
  | .z => s.zf = true
  | .zp => s.nf = false
  | .n => s.nf = true
  | .p => s.nf = false ∧ s.zf = false
  | .zn => s.nf = true ∨ s.zf = true
  | .ni => s.ibufFlgIn = false
  | .no => s.obufFlgIn = true
  | .nc => s.cf = false
  | .c => s.cf = true
  | .ge => s.vf = s.nf
  | .lt => s.vf ≠ s.nf
  | .gt => s.vf = s.nf ∧ s.zf = false
  | .le => s.vf ≠ s.nf ∨ s.zf = true

/-- The branch with condition `cc` decodes from its two bytes and does what rule R90 says. -/
def BranchRuns (cc : Cond) : Prop :=
  (∀ d rest, decode (branchByte cc :: d :: rest) = .ok (branchInstr cc d, rest)) ∧
  ∀ d s, ∃ t, exec (branchInstr cc d) s = .next t ∧
    (CondMet s cc → t.pc = d) ∧ (¬ CondMet s cc → t.pc = s.pc) ∧
    SameRegs s t ∧ SameFlags s t ∧ SameMemory s t ∧ SameSystem s t

/-- A one-bit shift or rotate: its two bytes decode to it, and for every register and state it writes the result
`res v c` and the carry `out v`, clears VF or sets it where `ovf v` holds, and sets N and Z of the result. `v` is
the register and `c` the carry before, both as numbers. -/
def ShiftRuns (mk : Reg → Instr) (byteAcc byteIx : Byte) (res : Nat → Nat → Nat) (out ovf : Nat → Prop) : Prop :=
  (∀ rest, decode (byteAcc :: rest) = .ok (mk .acc, rest) ∧ decode (byteIx :: rest) = .ok (mk .ix, rest)) ∧
  ∀ a s, ∃ t r, exec (mk a) s = .next t ∧ RegWritten a r s t ∧
    r.toNat = res (regOf s a).toNat (bit s.cf) ∧
    (t.cf = true ↔ out (regOf s a).toNat) ∧ (t.vf = true ↔ ovf (regOf s a).toNat) ∧
    ResultFlags r t ∧ SameBeyondRegs s t

/-- Bits 7 and 6 of a byte given as a number differ. -/
def SignWouldChange (v : Nat) : Prop := 64 ≤ v ∧ v < 192

/-- Field A of a first byte (rule R56). -/
def regField (b : Byte) : Reg := if b.toNat / 8 % 2 = 0 then .acc else .ix

/-- Field B of a first byte, with the second byte (rule R57). -/
def op2Field (b d : Byte) : Operand2 :=
  match b.toNat % 8 with
  | 0 => .reg .acc
  | 1 => .reg .ix
  | 4 => .mem .absProg d
  | 5 => .mem .absData d
  | 6 => .mem .idxProg d
  | 7 => .mem .idxData d
  | _ => .imm d

/-- All sixteen first bytes of a type 4 operation decode to it, with one byte when B is 000 or 001 and two
otherwise (rule R54). -/
def TypeFourDecodes (op : Nat) (mk : Reg → Operand2 → Instr) : Prop :=
  ∀ b d : Byte, b.toNat / 16 = op →
    decode [b, d] = .ok (mk (regField b) (op2Field b d), if b.toNat % 8 < 2 then [d] else [])

/-- The eight first bytes of the illegal ST (rule R64). -/
def IllegalByte (b : Byte) : Prop := b.toNat / 16 = 7 ∧ b.toNat % 8 < 4

/-- The byte at PC. -/
def byteAtPc (s : State) : Byte := s.mem.read (progAddr s.pc)

/-- The bits of a first byte that are don't-care (rules R51, R57, R62, R63). -/
def dontCare (b : Byte) : Byte :=
  if b.toNat < 0x30 then 0x07
  else if b.toNat / 16 = 5 then 0x0F
  else if 0x60 ≤ b.toNat ∧ b.toNat / 16 ≠ 7 ∧ b.toNat % 8 / 2 = 1 then 0x01
  else 0x00

/-- Two first bytes differ in don't-care bits only. -/
def SameCode (b c : Byte) : Prop := (b ^^^ c) &&& ~~~(dontCare b) = 0

/-- The instructions that write CF, column 6 of rule R17. -/
def writesCf : Instr → Bool
  | .rcf | .scf | .sra _ | .sla _ | .srl _ | .sll _ | .rra _ | .rla _ | .rrl _ | .rll _ => true
  | .sbcReg _ _ | .sbcImm _ _ | .sbcMem _ _ _ | .adcReg _ _ | .adcImm _ _ | .adcMem _ _ _ => true
  | _ => false

/-- The instructions that write VF, NF and ZF, columns 7 to 9 of rule R17. -/
def writesVnz : Instr → Bool
  | .sra _ | .sla _ | .srl _ | .sll _ | .rra _ | .rla _ | .rrl _ | .rll _ => true
  | .sbcReg _ _ | .sbcImm _ _ | .sbcMem _ _ _ => true
  | .adcReg _ _ | .adcImm _ _ | .adcMem _ _ _ => true
  | .subReg _ _ | .subImm _ _ | .subMem _ _ _ => true
  | .addReg _ _ | .addImm _ _ | .addMem _ _ _ => true
  | .eorReg _ _ | .eorImm _ _ | .eorMem _ _ _ => true
  | .orReg _ _ | .orImm _ _ | .orMem _ _ _ => true
  | .andReg _ _ | .andImm _ _ | .andMem _ _ _ => true
  | .cmpReg _ _ | .cmpImm _ _ | .cmpMem _ _ _ => true
  | _ => false

/-- The instructions that CF affects, column 2 of rule R17. -/
def readsCf : Instr → Bool
  | .rra _ | .rla _ | .bnc _ | .bc _ => true
  | .sbcReg _ _ | .sbcImm _ _ | .sbcMem _ _ _ | .adcReg _ _ | .adcImm _ _ | .adcMem _ _ _ => true
  | _ => false

/-- The instructions that VF affects, column 3 of rule R17. -/
def readsVf : Instr → Bool
  | .bvf _ | .bge _ | .blt _ | .bgt _ | .ble _ => true
  | _ => false

/-- The instructions that NF affects, column 4 of rule R17. -/
def readsNf : Instr → Bool
  | .bzp _ | .bn _ | .bp _ | .bzn _ | .bge _ | .blt _ | .bgt _ | .ble _ => true
  | _ => false

/-- The instructions that ZF affects, column 5 of rule R17. -/
def readsZf : Instr → Bool
  | .bnz _ | .bz _ | .bp _ | .bzn _ | .bgt _ | .ble _ => true
  | _ => false

/-- The register an instruction writes (rule R12). -/
def destination : Instr → Option Reg
  | .inp => some .acc
  | .sra a | .sla a | .srl a | .sll a | .rra a | .rla a | .rrl a | .rll a => some a
  | .ldReg a _ | .ldImm a _ | .ldMem a _ _ => some a
  | .sbcReg a _ | .sbcImm a _ | .sbcMem a _ _ => some a
  | .adcReg a _ | .adcImm a _ | .adcMem a _ _ => some a
  | .subReg a _ | .subImm a _ | .subMem a _ _ => some a
  | .addReg a _ | .addImm a _ | .addMem a _ _ => some a
  | .eorReg a _ | .eorImm a _ | .eorMem a _ _ => some a
  | .orReg a _ | .orImm a _ | .orMem a _ _ => some a
  | .andReg a _ | .andImm a _ | .andMem a _ _ => some a
  | _ => none

/-- The target of a branch. -/
def branchTarget : Instr → Option Byte
  | .ba d | .bvf d | .bnz d | .bz d | .bzp d | .bn d | .bp d | .bzn d
  | .bni d | .bno d | .bnc d | .bc d | .bge d | .blt d | .bgt d | .ble d => some d
  | _ => none

/-- The same instruction executed `n` times over. -/
def repeatExec (i : Instr) : Nat → State → Result
  | 0, s => .next s
  | n + 1, s =>
    match exec i s with
    | .next t => repeatExec i n t
    | .fault r => .fault r
    | .refused r => .refused r

/-- The 16-bit number with its high byte in IX and its low byte in ACC. -/
def pairOf (s : State) : Nat := 256 * s.ix.toNat + s.acc.toNat

end Sys2Proof.Claims

open Sys2Proof Sys2Proof.Machine Sys2Proof.Claims

/-! ### The step and the decoder -/

/-- Rules R14, R26, R55 and R163: a step of a running state executes the instruction its two bytes at PC decode to,
with PC moved past the instruction's bytes (modulo 256, the spec's decisions D1 and D2, log entry 1) and the first
byte in IR; then the step number advances and the environment's levels are drawn anew (log entry 10). -/
def Obligations.StepRunsDecodedInstruction : Prop :=
  ∀ (s : State) (i : Instr) (rest : List Byte), s.run = .running →
    decode [s.mem.read (progAddr s.pc), s.mem.read (progAddr (s.pc + 1))] = .ok (i, rest) →
    step s =
      match exec i { s with pc := s.pc + BitVec.ofNat 8 (2 - rest.length), ir := s.mem.read (progAddr s.pc) } with
      | .next t => .next { t with
          stepNo := t.stepNo + 1
          ibuf := Config.ibufAt (t.stepNo + 1)
          ibufFlgIn := Config.ibufFlgAt (t.stepNo + 1)
          obufFlgIn := Config.obufFlgAt (t.stepNo + 1) }
      | .fault r => .fault r
      | .refused r => .refused r

/-- Rules R55, R61 and R54: every instruction's encoding decodes back to it, whatever bytes follow. Don't-care bits
are filled as log entry 9 says (decision D10). -/
def Obligations.DecodeEncodeRoundTrip : Prop :=
  ∀ (i : Instr) (rest : List Byte), decode (encode i ++ rest) = .ok (i, rest)

/-- Rules R55, R62 and R65: any two bytes decode, and what they decode to encodes to the same bytes but for
don't-care bits of the first (decision D10, log entry 9). -/
def Obligations.EncodeDecodeRestoresBytes : Prop :=
  ∀ b d : Byte, ∃ i rest c, decode [b, d] = .ok (i, rest) ∧ encode i ++ rest = [c, d] ∧ SameCode b c

/-- Rule R62: first bytes that differ in don't-care bits only decode alike (decision D10, log entry 9). -/
def Obligations.DontCareBitsDecodeAlike : Prop :=
  ∀ b c d : Byte, SameCode b c → decode [b, d] = decode [c, d]

/-- One word of each family, from the source's listings (95_test_vectors.md S1 and S2) and, for IN, from the secondary's
table of opcode bytes (S6). -/
def Obligations.ListingWordsDecode : Prop :=
  decode [0x0F] = .ok (.hlt, []) ∧ decode [0x2F] = .ok (.scf, []) ∧ decode [0x1F] = .ok (.inp, []) ∧
  decode [0x3F, 0x19] = .ok (.ble 0x19, []) ∧ decode [0x33, 0x11] = .ok (.bp 0x11, []) ∧
  decode [0x43] = .ok (.sll .acc, []) ∧ decode [0x45] = .ok (.rla .acc, []) ∧
  decode [0x6C, 0x80] = .ok (.ldMem .ix .absProg 0x80, []) ∧ decode [0x7C, 0x90] = .ok (.stMem .ix .absProg 0x90, []) ∧
  decode [0xC9] = .ok (.eorReg .ix .ix, []) ∧ decode [0xAA, 0x01] = .ok (.subImm .ix 0x01, []) ∧
  decode [0xF7, 0x01] = .ok (.cmpMem .acc .idxData 0x01, [])

/-- Rules R55, R150 and R157: a running state whose byte at PC is not an illegal ST takes a step to a next state, and
so does every running state that is safe in the sense of `State.safe`; the unused code counts as HLT (decision D9, log
entry 8). -/
def Obligations.LegalByteSteps : Prop :=
  (∀ s : State, s.run = .running → ¬ IllegalByte (byteAtPc s) → ∃ t, step s = .next t) ∧
  ∀ s : State, s.run = .running → s.safe → ∃ t, step s = .next t

/-- Rules R64, R151 and R153 (decision D8, log entry 7): a step raises IllegalEncoding(b) exactly on a running state
whose byte at PC is b, one of the eight illegal first bytes. That no other byte faults so rests on 0x50 to 0x5F
running as HLT, the spec's decision D9 (rule R63, log entry 8). -/
def Obligations.IllegalEncodingExactly : Prop :=
  ∀ (s : State) (b : Byte), step s = .fault (.illegalEncoding b) ↔
    s.run = .running ∧ byteAtPc s = b ∧ IllegalByte b

/-- Rules R64, R129 and R151 (decision D8, log entry 7): ST with B = 0xx stops in every state, with its first byte. -/
def Obligations.IllegalStoreStops : Prop :=
  ∀ (a : Reg) (b : BitVec 2) (s : State), ∃ x : Byte, exec (.stIllegal a b) s = .fault (.illegalEncoding x) ∧
    x.toNat = 0x70 + (if a = .acc then 0 else 8) + b.toNat

/-- Rules R33 and R55: the next instruction depends on PC and the program area alone (across offset 0xFF by the spec's
decisions D1 and D2, log entry 1). -/
def Obligations.FetchReadsProgramAreaOnly : Prop :=
  ∀ s t : State, t.pc = s.pc → (∀ x : Addr, x.toNat < 256 → t.mem.read x = s.mem.read x) →
    t.fetch.1 = s.fetch.1 ∧ t.fetch.2.pc = s.fetch.2.pc ∧ t.fetch.2.ir = s.fetch.2.ir

/-- The model's own placing of an instruction (log entry 17): a table word that decodes is what the next fetch reads. -/
def Obligations.PlacedWordIsFetched : Prop :=
  ∀ (s : State) (nbits w : Nat) (i : Instr), s.mem.wf = true → decodeTableWord nbits w = some i →
    (s.withFetchWord nbits w).fetch.1 = i ∧ (s.withFetchWord nbits w).run = .running

/-! ### Reset and invariants -/

/-- Rules R25, R170 and R171 (decision D3, log entry 2): a run starts at PC = 0x00, running, with the launch's
memory, the given start values, and nothing output; the start values of `State.reset` are the model's choice
(log entries 3 and 12). -/
def Obligations.RunStartsAtZero : Prop :=
  (∀ v m, (State.launch v m).pc = 0x00 ∧ (State.launch v m).run = .running ∧ (State.launch v m).mem = m ∧
    (State.launch v m).acc = v.acc ∧ (State.launch v m).ix = v.ix ∧ (State.launch v m).cf = v.cf ∧
    (State.launch v m).vf = v.vf ∧ (State.launch v m).nf = v.nf ∧ (State.launch v m).zf = v.zf ∧
    (State.launch v m).obuf = v.obuf ∧ (State.launch v m).outTrace = []) ∧
  State.reset = State.launch Config.resetValues []

/-- The invariant of `StepKeepsWellFormed` holds at reset and at every launch with a canonical memory. -/
def Obligations.ResetIsWellFormed : Prop :=
  State.reset.wf = true ∧ State.reset.signOk = true ∧ ∀ v m, Memory.wf m = true → (State.launch v m).wf = true

/-- Every step keeps a state well formed: memory canonical (log entry 12) and within 512 bytes (rule R30), the output
trace in order (rule R163, decision D11, log entry 10), OBUF the last value output (rules R20 and R163). The unused
code counts as HLT by the spec's decision D9 (log entry 8). -/
def Obligations.StepKeepsWellFormed : Prop :=
  ∀ s t : State, s.wf = true → step s = .next t → t.wf = true

/-- Rules R111 and R136, and 95_test_vectors.md B3: no step makes NF and ZF both 1 (ZF cleared by the spec's decision
D6, log entry 5). The unused code counts as HLT by the spec's decision D9 (log entry 8). -/
def Obligations.StepKeepsSignOk : Prop :=
  ∀ s t : State, s.signOk = true → step s = .next t → t.signOk = true

/-- The model's form of memory (log entry 12): two canonical memories with equal reads are equal. -/
def Obligations.EqualReadsEqualMemory : Prop :=
  ∀ m n : Memory, m.wf = true → n.wf = true → (∀ x, m.read x = n.read x) → m = n

/-! ### Rules about every instruction -/

/-- Rules R35, R38, R39 and R125: ST writes the one byte at its effective address, and no other instruction writes
memory. The unused code counts as HLT by the spec's decision D9 (log entry 8). -/
def Obligations.OnlyStoreWritesMemory : Prop :=
  ∀ (i : Instr) (s t : State), s.mem.wf = true → exec i s = .next t →
    (∀ a m d, i = .stMem a m d → ∀ x, t.mem.read x = if x = s.ea m d then regOf s a else s.mem.read x) ∧
    ((∀ a m d, i ≠ .stMem a m d) → SameMemory s t)

/-- Rule R17: CF is written by RCF, SCF, SBC, ADC and the shifts and rotates only, the other flags by the shifts and
rotates and the eight arithmetic and logic instructions only. The unused code counts as HLT by the spec's decision D9
(log entry 8). -/
def Obligations.OnlyListedInstructionsWriteFlags : Prop :=
  ∀ (i : Instr) (s t : State), exec i s = .next t →
    (writesCf i = false → t.cf = s.cf) ∧ (writesVnz i = false → t.vf = s.vf ∧ t.nf = s.nf ∧ t.zf = s.zf)

/-- Rule R17: a flag an instruction is not marked to read changes nothing of what it does; the flag itself is carried
along where the instruction does not write it. The unused code counts as HLT by the spec's decision D9 (log entry 8).
-/
def Obligations.UnreadFlagsDoNotMatter : Prop :=
  ∀ (i : Instr) (s t : State) (b : Bool), exec i s = .next t →
    (readsCf i = false → exec i { s with cf := b } = .next { t with cf := if writesCf i then t.cf else b }) ∧
    (readsVf i = false → exec i { s with vf := b } = .next { t with vf := if writesVnz i then t.vf else b }) ∧
    (readsNf i = false → exec i { s with nf := b } = .next { t with nf := if writesVnz i then t.nf else b }) ∧
    (readsZf i = false → exec i { s with zf := b } = .next { t with zf := if writesVnz i then t.zf else b })

/-- Rules R12 and R125: a register changes only as the destination of an instruction. The unused code counts as HLT by
the spec's decision D9 (log entry 8). -/
def Obligations.OnlyDestinationRegisterChanges : Prop :=
  ∀ (i : Instr) (s t : State) (a : Reg), exec i s = .next t → destination i ≠ some a → regOf t a = regOf s a

/-- Rule R13: no instruction reads PC as data, and only a branch writes it, with its target. The unused code counts as
HLT by the spec's decision D9 (log entry 8). -/
def Obligations.OnlyBranchesWritePc : Prop :=
  ∀ (i : Instr) (s t : State), exec i s = .next t →
    (branchTarget i = none → ∀ p, exec i { s with pc := p } = .next { t with pc := p }) ∧
    (∀ d, branchTarget i = some d → t.pc = d ∨ t.pc = s.pc)

/-- Rules R20, R21, R22 and R163: no instruction writes IBUF or a flag signal, only OUT writes OBUF and the output
trace (decision D11, log entry 10), only HLT and the unused code (decision D9, log entry 8) change the run state, and
none writes IR or the step number; that IR also survives HLT is the model's choice (log entry 13). -/
def Obligations.OnlyOutAndHaltTouchTheSystem : Prop :=
  ∀ (i : Instr) (s t : State), exec i s = .next t →
    t.ibuf = s.ibuf ∧ t.ibufFlgIn = s.ibufFlgIn ∧ t.obufFlgIn = s.obufFlgIn ∧ t.ir = s.ir ∧ t.stepNo = s.stepNo ∧
    (i ≠ .out → t.obuf = s.obuf ∧ t.outTrace = s.outTrace) ∧ (i ≠ .hlt → i ≠ .unused5x → t.run = s.run)

/-- Rule R20: the processor never reads OBUF: what it held, and what was output before (the trace of decision D11, log
entry 10), changes nothing but OBUF and the output trace. -/
def Obligations.ObufIsNeverRead : Prop :=
  ∀ (s : State) (v : Byte) (tr : List (Nat × Byte)),
    (∀ t, step s = .next t → ∃ w tr', step { s with obuf := v, outTrace := tr } = .next { t with obuf := w, outTrace := tr' }) ∧
    (∀ r, step s = .fault r → step { s with obuf := v, outTrace := tr } = .fault r)

/-- Rule R18: nothing a program does depends on what IR held. -/
def Obligations.IrIsNotVisible : Prop :=
  ∀ (s : State) (v : Byte), step { s with ir := v } = step s

/-! ### Type 1 -/

/-- Rule R80; PC wraps at 0xFF by the spec's decision D1 (log entry 1), and all eight bytes decode alike by its decision
D10 (log entry 9). -/
def Obligations.NopDoesNothing : Prop :=
  (∀ (b : Byte) (rest : List Byte), b.toNat < 0x08 → decode (b :: rest) = .ok (.nop, rest)) ∧
  (∀ s : State, exec .nop s = .next s) ∧
  ∀ s : State, s.run = .running → (byteAtPc s).toNat < 0x08 → ∃ t, step s = .next t ∧
    t.pc = s.pc + 1 ∧ SameRegs s t ∧ SameFlags s t ∧ SameMemory s t ∧ t.obuf = s.obuf ∧ t.run = .running

/-- Rules R84 and R85; that all eight bytes of each decode alike is the spec's decision D10 (rule R62, log entry 9). -/
def Obligations.CarryFlagInstructions : Prop :=
  (∀ (b : Byte) (rest : List Byte), b.toNat / 8 = 4 → decode (b :: rest) = .ok (.rcf, rest)) ∧
  (∀ (b : Byte) (rest : List Byte), b.toNat / 8 = 5 → decode (b :: rest) = .ok (.scf, rest)) ∧
  (∀ s : State, exec .rcf s = .next { s with cf := false }) ∧
  (∀ s : State, exec .scf s = .next { s with cf := true })

/-- Rules R82 and R83; that OUT's event joins an output trace is the spec's decision D11 (rule R163, log entries 10
and 16), that all eight bytes of each decode alike its decision D10 (log entry 9). -/
def Obligations.OutAndInMoveTheAccumulator : Prop :=
  (∀ (b : Byte) (rest : List Byte), b.toNat / 8 = 2 → decode (b :: rest) = .ok (.out, rest)) ∧
  (∀ (b : Byte) (rest : List Byte), b.toNat / 8 = 3 → decode (b :: rest) = .ok (.inp, rest)) ∧
  (∀ s : State, exec .out s = .next { s with obuf := s.acc, outTrace := s.outTrace ++ [(s.stepNo, s.acc)] }) ∧
  (∀ s : State, exec .inp s = .next { s with acc := s.ibuf })

/-- Rules R63, R81 and R176 (decisions D9, D10 and D16, log entries 8, 9 and 13): HLT and the unused code halt; the step
leaves PC at the address after it and the rest as it was, and the halted state has no step. That exec leaves IR as it
is, so that IR survives HLT, is the model's choice (log entry 13). -/
def Obligations.HaltEndsTheRun : Prop :=
  (∀ s : State, exec .hlt s = .next { s with run := .halted }) ∧
  (∀ s : State, exec .unused5x s = .next { s with run := .halted }) ∧
  ∀ s : State, s.run = .running → (byteAtPc s).toNat / 8 = 1 ∨ (byteAtPc s).toNat / 16 = 5 →
    ∃ t, step s = .next t ∧ t.run = .halted ∧ t.pc = s.pc + 1 ∧ SameRegs s t ∧ SameFlags s t ∧ SameMemory s t ∧
      t.obuf = s.obuf ∧ t.outTrace = s.outTrace ∧ step t = .fault .halted

/-! ### Branches -/

/-- Rules R91 to R98, R101 and R102: BA, and the branches on CF, VF, NF and ZF that compare nothing signed. -/
def Obligations.FlagBranches : Prop :=
  ∀ cc ∈ [Cond.always, .vf, .nz, .z, .zp, .n, .p, .zn, .nc, .c], BranchRuns cc

/-- Rules R99 and R100: the branches on the two signals, by the levels that the state holds of them. -/
def Obligations.SignalBranches : Prop := BranchRuns .ni ∧ BranchRuns .no

/-- Rules R103 to R106, as conditions on the flags. -/
def Obligations.SignedBranches : Prop := ∀ cc ∈ [Cond.ge, .lt, .gt, .le], BranchRuns cc

/-- Rule R107, with R103 to R106: after CMP or SUB the four signed branches, and BZ, compare the operands. That a flag
is cleared when its condition does not hold is the spec's decision D6 (log entry 5), that operands are read before
they are written its decision D21 (log entry 11). The formula of V is log entry 6 (decision D7, GK3). B = 011 as an
immediate is the spec's decision D10 (log entry 9). -/
def Obligations.SignedBranchesCompareOperands : Prop :=
  ∀ op ∈ [AluOp.cmp, .sub], ∀ (a : Reg) (x : Operand2) (s t : State) (d : Byte), exec (aluInstr op a x) s = .next t →
    exec (.bge d) t = .next { t with pc := if (op2Of s x).toInt ≤ (regOf s a).toInt then d else t.pc } ∧
    exec (.blt d) t = .next { t with pc := if (regOf s a).toInt < (op2Of s x).toInt then d else t.pc } ∧
    exec (.bgt d) t = .next { t with pc := if (op2Of s x).toInt < (regOf s a).toInt then d else t.pc } ∧
    exec (.ble d) t = .next { t with pc := if (regOf s a).toInt ≤ (op2Of s x).toInt then d else t.pc } ∧
    exec (.bz d) t = .next { t with pc := if regOf s a = op2Of s x then d else t.pc }

/-- Rule R107 (borrow by decision D7, log entry 6): with CF = 0, SBC then BC or BNC compares unsigned. That CF is 0
where nothing is carried or borrowed is the spec's decision D6 (log entry 5), reading operands before a write its
decision D21 (log entry 11), B = 011 as an immediate its decision D10 (log entry 9). -/
def Obligations.BorrowComparesUnsigned : Prop :=
  ∀ (a : Reg) (x : Operand2) (s t : State) (d : Byte), s.cf = false → exec (aluInstr .sbc a x) s = .next t →
    exec (.bc d) t = .next { t with pc := if (regOf s a).toNat < (op2Of s x).toNat then d else t.pc } ∧
    exec (.bnc d) t = .next { t with pc := if (op2Of s x).toNat ≤ (regOf s a).toNat then d else t.pc }

/-! ### Shifts and rotates -/

/-- Rules R112, R114, R116 and R118: the four right operations; the number that enters at bit 7 counts 128. That ZF is 0
for a result that is not is the spec's decision D6 (rule R16, log entry 5). -/
def Obligations.RightShifts : Prop :=
  ShiftRuns .sra 0x40 0x48 (fun v _ => v / 2 + 128 * (v / 128)) (fun v => v % 2 = 1) (fun _ => False) ∧
  ShiftRuns .srl 0x42 0x4A (fun v _ => v / 2) (fun v => v % 2 = 1) (fun _ => False) ∧
  ShiftRuns .rra 0x44 0x4C (fun v c => v / 2 + 128 * c) (fun v => v % 2 = 1) (fun _ => False) ∧
  ShiftRuns .rrl 0x46 0x4E (fun v _ => v / 2 + 128 * (v % 2)) (fun v => v % 2 = 1) (fun _ => False)

/-- Rules R115 and R119; that ZF is 0 for a result that is not is the spec's decision D6 (rule R16, log entry 5). -/
def Obligations.LogicalLeftShifts : Prop :=
  ShiftRuns .sll 0x43 0x4B (fun v _ => 2 * v % 256) (fun v => 128 ≤ v) (fun _ => False) ∧
  ShiftRuns .rll 0x47 0x4F (fun v _ => 2 * v % 256 + v / 128) (fun v => 128 ≤ v) (fun _ => False)

/-- Rules R111, R113 and R117; VF by the spec's decision D5 (log entry 4), flags cleared otherwise by its decision D6
(log entry 5). -/
def Obligations.ArithmeticLeftShifts : Prop :=
  ShiftRuns .sla 0x41 0x49 (fun v _ => 2 * v % 256) (fun v => 128 ≤ v) SignWouldChange ∧
  ShiftRuns .rla 0x45 0x4D (fun v c => 2 * v % 256 + c) (fun v => 128 ≤ v) SignWouldChange

/-- Rules R116 to R119: nine rotations through CF restore the register and CF, eight rotations the register. -/
def Obligations.RotationsComeRound : Prop :=
  ∀ (a : Reg) (s : State),
    (∃ t, repeatExec (.rra a) 9 s = .next t ∧ SameRegs s t ∧ t.cf = s.cf) ∧
    (∃ t, repeatExec (.rla a) 9 s = .next t ∧ SameRegs s t ∧ t.cf = s.cf) ∧
    (∃ t, repeatExec (.rrl a) 8 s = .next t ∧ SameRegs s t) ∧
    (∃ t, repeatExec (.rll a) 8 s = .next t ∧ SameRegs s t)

/-- Rules R71, R115 and R117: SLL of the low byte then RLA of the high byte is a left shift of sixteen bits through CF. -/
def Obligations.SllThenRlaShiftsSixteenBits : Prop :=
  ∀ s t u : State, exec (.sll .acc) s = .next t → exec (.rla .ix) t = .next u →
    65536 * bit u.cf + pairOf u = 2 * pairOf s

/-! ### Operands, LD and ST -/

/-- Rule R127: the four effective addresses as numbers, by the bits of B and by form; using IX as a base changes
neither IX nor a flag. -/
def Obligations.EffectiveAddresses : Prop :=
  (∀ (b d : Byte) (s : State), b.toNat / 16 = 6 → 4 ≤ b.toNat % 8 → ∃ m,
    decode [b, d] = .ok (.ldMem (regField b) m d, []) ∧
    (s.ea m d).toNat = 256 * (b.toNat % 2) + if b.toNat % 8 < 6 then d.toNat else (s.ix.toNat + d.toNat) % 256) ∧
  (∀ (s : State) (d : Byte),
    (s.ea .absProg d).toNat = d.toNat ∧ (s.ea .absData d).toNat = 256 + d.toNat ∧
    (s.ea .idxProg d).toNat = (s.ix.toNat + d.toNat) % 256 ∧
    (s.ea .idxData d).toNat = 256 + (s.ix.toNat + d.toNat) % 256) ∧
  ∀ (m : MemMode) (d : Byte) (s : State), ∃ t u, exec (.ldMem .acc m d) s = .next t ∧ t.ix = s.ix ∧ SameFlags s t ∧
    exec (.stMem .acc m d) s = .next u ∧ u.ix = s.ix ∧ SameFlags s u

/-- Rule R128, with op2 of rule R126: read before the register is written by the spec's decision D21 (log entry 11), and
B = 011 an immediate like B = 010 by its decision D10 (log entry 9). -/
def Obligations.LoadMovesOperand : Prop :=
  TypeFourDecodes 6 ldInstr ∧
  ∀ (a : Reg) (x : Operand2) (s : State), ∃ t, exec (ldInstr a x) s = .next t ∧
    RegWritten a (op2Of s x) s t ∧ SameFlags s t ∧ SameBeyondRegs s t

/-- Rule R129 in its legal forms: ST writes x[A] at the effective address and changes nothing else. That the store
takes effect at once is the spec's decision D12 (log entry 11). -/
def Obligations.StoreWritesOneByte : Prop :=
  (∀ b d : Byte, b.toNat / 16 = 7 → 4 ≤ b.toNat % 8 → ∃ m,
    op2Field b d = .mem m d ∧ decode [b, d] = .ok (.stMem (regField b) m d, [])) ∧
  ∀ (a : Reg) (m : MemMode) (d : Byte) (s : State), ∃ t, exec (.stMem a m d) s = .next t ∧
    (s.mem.wf = true → ∀ x, t.mem.read x = if x = s.ea m d then regOf s a else s.mem.read x) ∧
    t.pc = s.pc ∧ SameRegs s t ∧ SameFlags s t ∧ SameSystem s t

/-- Rules R34 and R42 (decision D12, log entry 11): a load through the same operand reads what ST just wrote. -/
def Obligations.LoadReadsWhatWasStored : Prop :=
  ∀ (a b : Reg) (m : MemMode) (d : Byte) (s t : State), s.mem.wf = true → exec (.stMem a m d) s = .next t →
    ∃ u, exec (.ldMem b m d) t = .next u ∧ regOf u b = regOf s a

/-- Rules R41 and R45 (decision D13, log entry 11): a byte ST writes at the address PC points to is the first byte of
the next instruction fetched. -/
def Obligations.StoreIsSeenByNextFetch : Prop :=
  ∀ (a : Reg) (m : MemMode) (d : Byte) (s t : State), s.mem.wf = true → s.ea m d = progAddr s.pc →
    exec (.stMem a m d) s = .next t →
    t.fetch.2.ir = regOf s a ∧
      ∃ rest, decode [regOf s a, t.mem.read (progAddr (t.pc + 1))] = .ok (t.fetch.1, rest)

/-! ### Arithmetic and logic -/

/-- Rules R136 and R138, on the carry going in: the sum, carry and signed overflow as exact numbers, and the overflow
by bits. Flags cleared otherwise, reads before writes and B = 011 are the spec's decisions D6, D21 and D10 (log
entries 5, 11 and 9). The formula of V is log entry 6 (decision D7, GK3). -/
def Obligations.AdcAddsWithCarry : Prop :=
  TypeFourDecodes 9 (aluInstr .adc) ∧
  ∀ (a : Reg) (x : Operand2) (s : State), ∃ t r, exec (aluInstr .adc a x) s = .next t ∧ RegWritten a r s t ∧
    r = regOf s a + op2Of s x + BitVec.ofNat 8 (bit s.cf) ∧
    (t.cf = true ↔ 256 ≤ (regOf s a).toNat + (op2Of s x).toNat + bit s.cf) ∧
    (t.vf = true ↔ (regOf s a).toInt + (op2Of s x).toInt + bit s.cf ≠ r.toInt) ∧
    (t.vf = true ↔ (regOf s a).msb = (op2Of s x).msb ∧ r.msb ≠ (regOf s a).msb) ∧
    ResultFlags r t ∧ SameBeyondRegs s t

/-- Rules R136 and R137 (borrow by decision D7, log entry 6): the difference with a borrow going in and out. Flags
cleared otherwise, reads before writes and B = 011 are the spec's decisions D6, D21 and D10 (log entries 5, 11 and 9).
The formula of V is log entry 6 (decision D7, GK3). -/
def Obligations.SbcSubtractsWithBorrow : Prop :=
  TypeFourDecodes 8 (aluInstr .sbc) ∧
  ∀ (a : Reg) (x : Operand2) (s : State), ∃ t r, exec (aluInstr .sbc a x) s = .next t ∧ RegWritten a r s t ∧
    r = regOf s a - op2Of s x - BitVec.ofNat 8 (bit s.cf) ∧
    (t.cf = true ↔ (regOf s a).toNat < (op2Of s x).toNat + bit s.cf) ∧
    (t.vf = true ↔ (regOf s a).toInt - (op2Of s x).toInt - bit s.cf ≠ r.toInt) ∧
    (t.vf = true ↔ (regOf s a).msb ≠ (op2Of s x).msb ∧ r.msb ≠ (regOf s a).msb) ∧
    ResultFlags r t ∧ SameBeyondRegs s t

/-- Rules R136 and R140: ADD leaves CF alone. Flags cleared otherwise, reads before writes and B = 011 are the spec's
decisions D6, D21 and D10 (log entries 5, 11 and 9). The formula of V is log entry 6 (decision D7, GK3). -/
def Obligations.AddLeavesCarry : Prop :=
  TypeFourDecodes 11 (aluInstr .add) ∧
  ∀ (a : Reg) (x : Operand2) (s : State), ∃ t r, exec (aluInstr .add a x) s = .next t ∧ RegWritten a r s t ∧
    r = regOf s a + op2Of s x ∧ t.cf = s.cf ∧
    (t.vf = true ↔ (regOf s a).toInt + (op2Of s x).toInt ≠ r.toInt) ∧
    (t.vf = true ↔ (regOf s a).msb = (op2Of s x).msb ∧ r.msb ≠ (regOf s a).msb) ∧
    ResultFlags r t ∧ SameBeyondRegs s t

/-- Rules R136, R139 and R144: SUB and CMP compute one difference and its flags and leave CF alone; SUB writes the
register, CMP does not. Flags cleared otherwise, reads before writes and B = 011 are the spec's decisions D6, D21 and
D10 (log entries 5, 11 and 9). The formula of V is log entry 6 (decision D7, GK3). -/
def Obligations.SubAndCmpLeaveCarry : Prop :=
  TypeFourDecodes 10 (aluInstr .sub) ∧ TypeFourDecodes 15 (aluInstr .cmp) ∧
  ∀ op ∈ [AluOp.sub, .cmp], ∀ (a : Reg) (x : Operand2) (s : State), ∃ t r, exec (aluInstr op a x) s = .next t ∧
    r = regOf s a - op2Of s x ∧ (op = .sub → RegWritten a r s t) ∧ (op = .cmp → SameRegs s t) ∧ t.cf = s.cf ∧
    (t.vf = true ↔ (regOf s a).toInt - (op2Of s x).toInt ≠ r.toInt) ∧
    (t.vf = true ↔ (regOf s a).msb ≠ (op2Of s x).msb ∧ r.msb ≠ (regOf s a).msb) ∧
    ResultFlags r t ∧ SameBeyondRegs s t

/-- Rules R141, R142 and R143 (OR and AND as 90_conflicts.md C1 has them), bit by bit. Flags cleared otherwise, reads
before writes and B = 011 are the spec's decisions D6, D21 and D10 (log entries 5, 11 and 9). -/
def Obligations.LogicBitByBit : Prop :=
  TypeFourDecodes 12 (aluInstr .eor) ∧ TypeFourDecodes 13 (aluInstr .orr) ∧ TypeFourDecodes 14 (aluInstr .andd) ∧
  ∀ op ∈ [AluOp.eor, .orr, .andd], ∀ (a : Reg) (x : Operand2) (s : State), ∃ t r,
    exec (aluInstr op a x) s = .next t ∧ RegWritten a r s t ∧
    (∀ k < 8, r.getLsbD k =
      match op with
      | .eor => (regOf s a).getLsbD k != (op2Of s x).getLsbD k
      | .orr => (regOf s a).getLsbD k || (op2Of s x).getLsbD k
      | _ => (regOf s a).getLsbD k && (op2Of s x).getLsbD k) ∧
    t.cf = s.cf ∧ t.vf = false ∧ ResultFlags r t ∧ SameBeyondRegs s t

/-- Rule R138: with CF = 0, ADC of the low bytes then ADC of the high bytes adds sixteen bits, CF the carry out. That
CF is 0 where nothing is carried or borrowed is the spec's decision D6 (log entry 5), reading operands before a write
its decision D21 (log entry 11), B = 011 as an immediate its decision D10 (log entry 9). -/
def Obligations.AdcChainAddsSixteenBits : Prop :=
  ∀ (x y : Operand2) (s t u : State), s.cf = false → exec (aluInstr .adc .acc x) s = .next t →
    exec (aluInstr .adc .ix y) t = .next u →
    65536 * bit u.cf + pairOf u = pairOf s + (256 * (op2Of t y).toNat + (op2Of s x).toNat)

/-- Rule R137 (borrow by decision D7, log entry 6): with CF = 0, SBC of the low bytes then SBC of the high bytes
subtracts sixteen bits, CF the borrow out. That CF is 0 where nothing is carried or borrowed is the spec's decision D6
(log entry 5), reading operands before a write its decision D21 (log entry 11), B = 011 as an immediate its decision
D10 (log entry 9). -/
def Obligations.SbcChainSubtractsSixteenBits : Prop :=
  ∀ (x y : Operand2) (s t u : State), s.cf = false → exec (aluInstr .sbc .acc x) s = .next t →
    exec (aluInstr .sbc .ix y) t = .next u →
    pairOf u + (256 * (op2Of t y).toNat + (op2Of s x).toNat) = 65536 * bit u.cf + pairOf s

/-! ### The assembler (the language as far as the sources show it, log entry 21) -/

/-- Rule R71: what a mnemonic with its operands assembles to is one machine instruction, never an illegal ST nor the
unused code, and its bytes decode to it. -/
def Obligations.AssembledInstructionIsOne : Prop :=
  ∀ (env : Asm.Env) (mn : Asm.Text) (ops : List Asm.Operand) (i : Instr), Asm.toInstr env mn ops = some i →
    WellFormed i = true ∧ i ≠ .unused5x ∧ decode (encode i) = .ok (i, [])

/-- Rules R61 and R68: every instruction but the unused code can be written. -/
def Obligations.EveryInstructionHasASourceForm : Prop :=
  ∀ (env : Asm.Env) (i : Instr), WellFormed i = true → i ≠ .unused5x → ∃ mn ops, Asm.toInstr env mn ops = some i

/-- Rule R67: hexadecimal with a leading 0 and a final H, and decimal, read as written. -/
def Obligations.NumbersReadAsWritten : Prop :=
  (∀ b : Byte, Asm.number ('0' :: (Asm.hex2 b.toNat ++ ['H'])) = some b.toNat) ∧
  ∀ h t u : Fin 10, Asm.number [Asm.hexDigit h, Asm.hexDigit t, Asm.hexDigit u] =
    some (100 * h.val + 10 * t.val + u.val)

/-- Rules R69 and R70: the address column of a line that emits bytes is the number of bytes emitted above it. -/
def Obligations.ListingAddressesAreOffsets : Prop :=
  ∀ (src : List Asm.Text) (above below : List Asm.Entry) (e : Asm.Entry),
    Asm.listing src = some (above ++ e :: below) → e.bytes ≠ [] →
      e.addr = some (above.flatMap (·.bytes)).length

/-- Rules R66 and R69: `END` ends the source: the lines after it change nothing, whatever they are. -/
def Obligations.EndEndsTheSource : Prop :=
  ∀ (above below : List Asm.Text) (t : Asm.Text), Asm.parseLine t = some ⟨none, .finish⟩ →
    Asm.listing (above ++ t :: below) = Asm.listing (above ++ [t])

/-- Rule R164: a program of up to 256 bytes placed from address 00 on reads back byte by byte, the rest of memory is
as it was, and memory stays canonical. -/
def Obligations.PlacedProgramReadsBack : Prop :=
  ∀ (m : Memory) (bs : List Byte), m.wf = true → bs.length ≤ 256 →
    (Asm.place m 0 bs).wf = true ∧
    ∀ x : Addr, (Asm.place m 0 bs).read x = if h : x.toNat < bs.length then bs[x.toNat] else m.read x
end

