-- ==== Sys2Proof/Laws/Assembler.lean ====
section
/-! SUPPORT. What the assembler's shared operations can do. -/

namespace Sys2Proof.Asm

open Sys2Proof.Machine

/-- A mnemonic's shape is a row of the table. -/
theorem shapeOf_mem {mn : Text} {sh : Shape} (h : shapeOf mn = some sh) : (mn, sh) ∈ mnemonics := by
  obtain ⟨above, below, e, _⟩ := List.lookup_eq_some_iff.1 h
  simp [e]

/-- A sum that is one number of 8 bits has that value. -/
@[simp] theorem value_num (env : Env) (d : Byte) : value env [.num d.toNat] = some d := by
  simp [value, d.isLt]

@[simp] theorem parseSource_nil : parseSource [] = some [] := rfl

/-- Nothing after `END` is read (rule R69). -/
theorem parseSource_end {t : Text} {l : Line} (h : parseLine t = some l) (hb : l.body = .finish) (below : List Text) :
    parseSource (t :: below) = some [(l, t)] := by
  simp [parseSource, h, hb]

/-- Before `END` a source parses line by line. -/
theorem parseSource_cons {t : Text} {l : Line} (h : parseLine t = some l) (hb : l.body ≠ .finish) (below : List Text) :
    parseSource (t :: below) = (parseSource below).map ((l, t) :: ·) := by
  cases hp : parseSource below <;> simp [parseSource, h, hb, hp]

@[simp] theorem place_nil (m : Memory) (off : Byte) : place m off [] = m := rfl

@[simp] theorem place_cons (m : Memory) (off b : Byte) (bs : List Byte) :
    place m off (b :: bs) = place (m.write (progAddr off) b) (off + 1) bs := rfl

end Sys2Proof.Asm
end

