-- ==== Sys2Proof/Laws/Memory.lean ====
section
/-! SUPPORT. The laws of memory: a read after a write, and that a write keeps the canonical form. -/

namespace Sys2Proof.Machine

theorem wfFrom_nil (lo : Nat) : Memory.wfFrom lo [] = true := rfl

theorem wfFrom_cons {lo k : Nat} {v : Byte} {m : Memory} :
    Memory.wfFrom lo ((k, v) :: m) = true ↔
      lo ≤ k ∧ k < 512 ∧ v ≠ Config.unlistedByte ∧ Memory.wfFrom (k + 1) m = true := by
  simp [Memory.wfFrom, and_assoc]

theorem wfFrom_mono {lo lo' : Nat} {m : Memory} (h : Memory.wfFrom lo m = true) (hle : lo' ≤ lo) :
    Memory.wfFrom lo' m = true := by
  cases m with
  | nil => rfl
  | cons e m =>
    obtain ⟨k, v⟩ := e
    rw [wfFrom_cons] at h ⊢
    exact ⟨hle.trans h.1, h.2⟩

/-- Below the first key nothing is listed. -/
theorem readKey_below {lo a : Nat} {m : Memory} (h : Memory.wfFrom lo m = true) (ha : a < lo) :
    m.readKey a = Config.unlistedByte := by
  cases m with
  | nil => rfl
  | cons e m =>
    obtain ⟨k, v⟩ := e
    have hk := (wfFrom_cons.1 h).1
    simp [Memory.readKey, show k ≠ a by omega, show a < k by omega]

theorem wfFrom_writeKey {lo a : Nat} {m : Memory} {x : Byte} (h : Memory.wfFrom lo m = true) (hlo : lo ≤ a)
    (ha : a < 512) : Memory.wfFrom lo (m.writeKey a x) = true := by
  induction m generalizing lo with
  | nil =>
    unfold Memory.writeKey
    split
    · rfl
    · exact wfFrom_cons.2 ⟨hlo, ha, ‹_›, rfl⟩
  | cons e m ih =>
    obtain ⟨k, v⟩ := e
    have ⟨h1, h2, h3, h4⟩ := wfFrom_cons.1 h
    unfold Memory.writeKey
    split_ifs with c1 c2 c3 c4
    · exact wfFrom_mono h4 (by omega)
    · exact wfFrom_cons.2 ⟨hlo, ha, c2, c1 ▸ h4⟩
    · exact h
    · exact wfFrom_cons.2 ⟨hlo, ha, c4, wfFrom_cons.2 ⟨by omega, h2, h3, h4⟩⟩
    · exact wfFrom_cons.2 ⟨h1, h2, h3, ih h4 (by omega)⟩

/-- In rising order, a read is the first entry's byte or a read of the rest. -/
theorem readKey_cons {k a : Nat} {v : Byte} {m : Memory} (h : Memory.wfFrom (k + 1) m = true) :
    Memory.readKey ((k, v) :: m) a = if a = k then v else m.readKey a := by
  by_cases ha : a = k
  · simp [Memory.readKey, ha]
  · by_cases hlt : a < k
    · simp [Memory.readKey, ha, Ne.symm ha, hlt, readKey_below h (by omega : a < k + 1)]
    · simp [Memory.readKey, ha, Ne.symm ha, hlt]

theorem readKey_writeKey {lo a b : Nat} {m : Memory} {x : Byte} (h : Memory.wfFrom lo m = true) (ha : a < 512) :
    (m.writeKey a x).readKey b = if b = a then x else m.readKey b := by
  induction m generalizing lo with
  | nil =>
    by_cases hx : x = Config.unlistedByte <;> by_cases hb : b = a <;>
      simp [Memory.writeKey, Memory.readKey, hx, hb, eq_comm (a := a)]
  | cons e m ih =>
    obtain ⟨k, v⟩ := e
    have ⟨_, _, _, h4⟩ := wfFrom_cons.1 h
    unfold Memory.writeKey
    rcases lt_trichotomy a k with hk | rfl | hk
    · have hm : Memory.wfFrom (a + 1) ((k, v) :: m) = true := wfFrom_cons.2 ⟨hk, (wfFrom_cons.1 h).2⟩
      have unlisted := readKey_below hm a.lt_succ_self
      by_cases hx : x = Config.unlistedByte
      · by_cases hb : b = a <;> simp [hk, hk.ne', hx, hb, unlisted]
      · simp [hk, hk.ne', hx, readKey_cons hm]
    · have unlisted := readKey_below h4 a.lt_succ_self
      by_cases hx : x = Config.unlistedByte <;> by_cases hb : b = a <;> simp [hx, hb, unlisted, readKey_cons h4]
    · rw [if_neg hk.ne, if_neg hk.not_gt, readKey_cons (wfFrom_writeKey h4 hk ha), readKey_cons h4, ih h4]
      by_cases hb : b = k
      · simp [hb, hk.ne]
      · simp [hb]

theorem Memory.wf_nil : Memory.wf [] = true := rfl

/-- A write keeps the canonical form. -/
theorem Memory.wf_write {m : Memory} (h : m.wf = true) (a : Addr) (v : Byte) : (m.write a v).wf = true :=
  wfFrom_writeKey h (Nat.zero_le _) a.isLt

/-- Rule R34: a write sets the addressed byte and no other. -/
theorem Memory.read_write {m : Memory} (h : m.wf = true) (a b : Addr) (v : Byte) :
    (m.write a v).read b = if b = a then v else m.read b := by
  simp [Memory.read, Memory.write, readKey_writeKey h a.isLt, BitVec.toNat_inj]

theorem Memory.read_write_same {m : Memory} (h : m.wf = true) (a : Addr) (v : Byte) :
    (m.write a v).read a = v := by simp [Memory.read_write h]

theorem Memory.read_write_other {m : Memory} (h : m.wf = true) {a b : Addr} (hne : b ≠ a) (v : Byte) :
    (m.write a v).read b = m.read b := by simp [Memory.read_write h, hne]

/-- Nothing listed: every byte reads as the model's unlisted byte. -/
theorem Memory.read_nil (a : Addr) : Memory.read [] a = Config.unlistedByte := rfl

theorem progAddr_toNat (x : Byte) : (progAddr x).toNat = x.toNat := by revert x; decide

theorem dataAddr_toNat (x : Byte) : (dataAddr x).toNat = 256 + x.toNat := by revert x; decide

theorem progAddr_inj {x y : Byte} : progAddr x = progAddr y ↔ x = y := by
  simp [← BitVec.toNat_inj, progAddr_toNat]

theorem dataAddr_inj {x y : Byte} : dataAddr x = dataAddr y ↔ x = y := by
  simp [← BitVec.toNat_inj, dataAddr_toNat]

/-- The two areas do not overlap (rule R31). -/
theorem progAddr_ne_dataAddr (x y : Byte) : progAddr x ≠ dataAddr y := by
  intro h
  have h' := congrArg BitVec.toNat h
  have := x.isLt
  rw [progAddr_toNat, dataAddr_toNat] at h'
  omega

end Sys2Proof.Machine
end

