-- ==== Sys2Proof/Laws/State.lean ====
section
/-! SUPPORT. One lemma per field per update of the state, so that no proof unfolds a record update. -/

namespace Sys2Proof.Machine

variable (s : State)

@[simp] theorem setReg_acc_acc (v : Byte) : (s.setReg .acc v).acc = v := rfl
@[simp] theorem setReg_acc_ix (v : Byte) : (s.setReg .acc v).ix = s.ix := rfl
@[simp] theorem setReg_ix_acc (v : Byte) : (s.setReg .ix v).acc = s.acc := rfl
@[simp] theorem setReg_ix_ix (v : Byte) : (s.setReg .ix v).ix = v := rfl
@[simp] theorem reg_acc : s.reg .acc = s.acc := rfl
@[simp] theorem reg_ix : s.reg .ix = s.ix := rfl
@[simp] theorem setReg_pc (a : Reg) (v : Byte) : (s.setReg a v).pc = s.pc := by cases a <;> rfl
@[simp] theorem setReg_ir (a : Reg) (v : Byte) : (s.setReg a v).ir = s.ir := by cases a <;> rfl
@[simp] theorem setReg_cf (a : Reg) (v : Byte) : (s.setReg a v).cf = s.cf := by cases a <;> rfl
@[simp] theorem setReg_vf (a : Reg) (v : Byte) : (s.setReg a v).vf = s.vf := by cases a <;> rfl
@[simp] theorem setReg_nf (a : Reg) (v : Byte) : (s.setReg a v).nf = s.nf := by cases a <;> rfl
@[simp] theorem setReg_zf (a : Reg) (v : Byte) : (s.setReg a v).zf = s.zf := by cases a <;> rfl
@[simp] theorem setReg_mem (a : Reg) (v : Byte) : (s.setReg a v).mem = s.mem := by cases a <;> rfl
@[simp] theorem setReg_obuf (a : Reg) (v : Byte) : (s.setReg a v).obuf = s.obuf := by cases a <;> rfl
@[simp] theorem setReg_ibuf (a : Reg) (v : Byte) : (s.setReg a v).ibuf = s.ibuf := by cases a <;> rfl
@[simp] theorem setReg_ibufFlgIn (a : Reg) (v : Byte) : (s.setReg a v).ibufFlgIn = s.ibufFlgIn := by cases a <;> rfl
@[simp] theorem setReg_obufFlgIn (a : Reg) (v : Byte) : (s.setReg a v).obufFlgIn = s.obufFlgIn := by cases a <;> rfl
@[simp] theorem setReg_run (a : Reg) (v : Byte) : (s.setReg a v).run = s.run := by cases a <;> rfl
@[simp] theorem setReg_outTrace (a : Reg) (v : Byte) : (s.setReg a v).outTrace = s.outTrace := by cases a <;> rfl
@[simp] theorem setReg_stepNo (a : Reg) (v : Byte) : (s.setReg a v).stepNo = s.stepNo := by cases a <;> rfl

theorem reg_setReg (a b : Reg) (v : Byte) : (s.setReg a v).reg b = if b = a then v else s.reg b := by
  cases a <;> cases b <;> rfl

@[simp] theorem setPc_acc (v : Byte) : (s.setPc v).acc = s.acc := rfl
@[simp] theorem setPc_ix (v : Byte) : (s.setPc v).ix = s.ix := rfl
@[simp] theorem setPc_pc (v : Byte) : (s.setPc v).pc = v := rfl
@[simp] theorem setPc_ir (v : Byte) : (s.setPc v).ir = s.ir := rfl
@[simp] theorem setPc_cf (v : Byte) : (s.setPc v).cf = s.cf := rfl
@[simp] theorem setPc_vf (v : Byte) : (s.setPc v).vf = s.vf := rfl
@[simp] theorem setPc_nf (v : Byte) : (s.setPc v).nf = s.nf := rfl
@[simp] theorem setPc_zf (v : Byte) : (s.setPc v).zf = s.zf := rfl
@[simp] theorem setPc_mem (v : Byte) : (s.setPc v).mem = s.mem := rfl
@[simp] theorem setPc_obuf (v : Byte) : (s.setPc v).obuf = s.obuf := rfl
@[simp] theorem setPc_ibuf (v : Byte) : (s.setPc v).ibuf = s.ibuf := rfl
@[simp] theorem setPc_ibufFlgIn (v : Byte) : (s.setPc v).ibufFlgIn = s.ibufFlgIn := rfl
@[simp] theorem setPc_obufFlgIn (v : Byte) : (s.setPc v).obufFlgIn = s.obufFlgIn := rfl
@[simp] theorem setPc_run (v : Byte) : (s.setPc v).run = s.run := rfl
@[simp] theorem setPc_outTrace (v : Byte) : (s.setPc v).outTrace = s.outTrace := rfl
@[simp] theorem setPc_stepNo (v : Byte) : (s.setPc v).stepNo = s.stepNo := rfl
@[simp] theorem setPc_reg (v : Byte) (r : Reg) : (s.setPc v).reg r = s.reg r := by cases r <;> rfl

@[simp] theorem setCf_acc (c : Bool) : (s.setCf c).acc = s.acc := rfl
@[simp] theorem setCf_ix (c : Bool) : (s.setCf c).ix = s.ix := rfl
@[simp] theorem setCf_pc (c : Bool) : (s.setCf c).pc = s.pc := rfl
@[simp] theorem setCf_ir (c : Bool) : (s.setCf c).ir = s.ir := rfl
@[simp] theorem setCf_cf (c : Bool) : (s.setCf c).cf = c := rfl
@[simp] theorem setCf_vf (c : Bool) : (s.setCf c).vf = s.vf := rfl
@[simp] theorem setCf_nf (c : Bool) : (s.setCf c).nf = s.nf := rfl
@[simp] theorem setCf_zf (c : Bool) : (s.setCf c).zf = s.zf := rfl
@[simp] theorem setCf_mem (c : Bool) : (s.setCf c).mem = s.mem := rfl
@[simp] theorem setCf_obuf (c : Bool) : (s.setCf c).obuf = s.obuf := rfl
@[simp] theorem setCf_ibuf (c : Bool) : (s.setCf c).ibuf = s.ibuf := rfl
@[simp] theorem setCf_ibufFlgIn (c : Bool) : (s.setCf c).ibufFlgIn = s.ibufFlgIn := rfl
@[simp] theorem setCf_obufFlgIn (c : Bool) : (s.setCf c).obufFlgIn = s.obufFlgIn := rfl
@[simp] theorem setCf_run (c : Bool) : (s.setCf c).run = s.run := rfl
@[simp] theorem setCf_outTrace (c : Bool) : (s.setCf c).outTrace = s.outTrace := rfl
@[simp] theorem setCf_stepNo (c : Bool) : (s.setCf c).stepNo = s.stepNo := rfl
@[simp] theorem setCf_reg (c : Bool) (r : Reg) : (s.setCf c).reg r = s.reg r := by cases r <;> rfl

@[simp] theorem setVnz_acc (v n z : Bool) : (s.setVnz v n z).acc = s.acc := rfl
@[simp] theorem setVnz_ix (v n z : Bool) : (s.setVnz v n z).ix = s.ix := rfl
@[simp] theorem setVnz_pc (v n z : Bool) : (s.setVnz v n z).pc = s.pc := rfl
@[simp] theorem setVnz_ir (v n z : Bool) : (s.setVnz v n z).ir = s.ir := rfl
@[simp] theorem setVnz_cf (v n z : Bool) : (s.setVnz v n z).cf = s.cf := rfl
@[simp] theorem setVnz_vf (v n z : Bool) : (s.setVnz v n z).vf = v := rfl
@[simp] theorem setVnz_nf (v n z : Bool) : (s.setVnz v n z).nf = n := rfl
@[simp] theorem setVnz_zf (v n z : Bool) : (s.setVnz v n z).zf = z := rfl
@[simp] theorem setVnz_mem (v n z : Bool) : (s.setVnz v n z).mem = s.mem := rfl
@[simp] theorem setVnz_obuf (v n z : Bool) : (s.setVnz v n z).obuf = s.obuf := rfl
@[simp] theorem setVnz_ibuf (v n z : Bool) : (s.setVnz v n z).ibuf = s.ibuf := rfl
@[simp] theorem setVnz_ibufFlgIn (v n z : Bool) : (s.setVnz v n z).ibufFlgIn = s.ibufFlgIn := rfl
@[simp] theorem setVnz_obufFlgIn (v n z : Bool) : (s.setVnz v n z).obufFlgIn = s.obufFlgIn := rfl
@[simp] theorem setVnz_run (v n z : Bool) : (s.setVnz v n z).run = s.run := rfl
@[simp] theorem setVnz_outTrace (v n z : Bool) : (s.setVnz v n z).outTrace = s.outTrace := rfl
@[simp] theorem setVnz_stepNo (v n z : Bool) : (s.setVnz v n z).stepNo = s.stepNo := rfl
@[simp] theorem setVnz_reg (v n z : Bool) (r : Reg) : (s.setVnz v n z).reg r = s.reg r := by cases r <;> rfl

@[simp] theorem setFlags_acc (c v n z : Bool) : (s.setFlags c v n z).acc = s.acc := rfl
@[simp] theorem setFlags_ix (c v n z : Bool) : (s.setFlags c v n z).ix = s.ix := rfl
@[simp] theorem setFlags_pc (c v n z : Bool) : (s.setFlags c v n z).pc = s.pc := rfl
@[simp] theorem setFlags_ir (c v n z : Bool) : (s.setFlags c v n z).ir = s.ir := rfl
@[simp] theorem setFlags_cf (c v n z : Bool) : (s.setFlags c v n z).cf = c := rfl
@[simp] theorem setFlags_vf (c v n z : Bool) : (s.setFlags c v n z).vf = v := rfl
@[simp] theorem setFlags_nf (c v n z : Bool) : (s.setFlags c v n z).nf = n := rfl
@[simp] theorem setFlags_zf (c v n z : Bool) : (s.setFlags c v n z).zf = z := rfl
@[simp] theorem setFlags_mem (c v n z : Bool) : (s.setFlags c v n z).mem = s.mem := rfl
@[simp] theorem setFlags_obuf (c v n z : Bool) : (s.setFlags c v n z).obuf = s.obuf := rfl
@[simp] theorem setFlags_ibuf (c v n z : Bool) : (s.setFlags c v n z).ibuf = s.ibuf := rfl
@[simp] theorem setFlags_ibufFlgIn (c v n z : Bool) : (s.setFlags c v n z).ibufFlgIn = s.ibufFlgIn := rfl
@[simp] theorem setFlags_obufFlgIn (c v n z : Bool) : (s.setFlags c v n z).obufFlgIn = s.obufFlgIn := rfl
@[simp] theorem setFlags_run (c v n z : Bool) : (s.setFlags c v n z).run = s.run := rfl
@[simp] theorem setFlags_outTrace (c v n z : Bool) : (s.setFlags c v n z).outTrace = s.outTrace := rfl
@[simp] theorem setFlags_stepNo (c v n z : Bool) : (s.setFlags c v n z).stepNo = s.stepNo := rfl
@[simp] theorem setFlags_reg (c v n z : Bool) (r : Reg) : (s.setFlags c v n z).reg r = s.reg r := by cases r <;> rfl

@[simp] theorem store_acc (a : Addr) (v : Byte) : (s.store a v).acc = s.acc := rfl
@[simp] theorem store_ix (a : Addr) (v : Byte) : (s.store a v).ix = s.ix := rfl
@[simp] theorem store_pc (a : Addr) (v : Byte) : (s.store a v).pc = s.pc := rfl
@[simp] theorem store_ir (a : Addr) (v : Byte) : (s.store a v).ir = s.ir := rfl
@[simp] theorem store_cf (a : Addr) (v : Byte) : (s.store a v).cf = s.cf := rfl
@[simp] theorem store_vf (a : Addr) (v : Byte) : (s.store a v).vf = s.vf := rfl
@[simp] theorem store_nf (a : Addr) (v : Byte) : (s.store a v).nf = s.nf := rfl
@[simp] theorem store_zf (a : Addr) (v : Byte) : (s.store a v).zf = s.zf := rfl
@[simp] theorem store_mem (a : Addr) (v : Byte) : (s.store a v).mem = s.mem.write a v := rfl
@[simp] theorem store_obuf (a : Addr) (v : Byte) : (s.store a v).obuf = s.obuf := rfl
@[simp] theorem store_ibuf (a : Addr) (v : Byte) : (s.store a v).ibuf = s.ibuf := rfl
@[simp] theorem store_ibufFlgIn (a : Addr) (v : Byte) : (s.store a v).ibufFlgIn = s.ibufFlgIn := rfl
@[simp] theorem store_obufFlgIn (a : Addr) (v : Byte) : (s.store a v).obufFlgIn = s.obufFlgIn := rfl
@[simp] theorem store_run (a : Addr) (v : Byte) : (s.store a v).run = s.run := rfl
@[simp] theorem store_outTrace (a : Addr) (v : Byte) : (s.store a v).outTrace = s.outTrace := rfl
@[simp] theorem store_stepNo (a : Addr) (v : Byte) : (s.store a v).stepNo = s.stepNo := rfl
@[simp] theorem store_reg (a : Addr) (v : Byte) (r : Reg) : (s.store a v).reg r = s.reg r := by cases r <;> rfl

@[simp] theorem output_acc (v : Byte) : (s.output v).acc = s.acc := rfl
@[simp] theorem output_ix (v : Byte) : (s.output v).ix = s.ix := rfl
@[simp] theorem output_pc (v : Byte) : (s.output v).pc = s.pc := rfl
@[simp] theorem output_ir (v : Byte) : (s.output v).ir = s.ir := rfl
@[simp] theorem output_cf (v : Byte) : (s.output v).cf = s.cf := rfl
@[simp] theorem output_vf (v : Byte) : (s.output v).vf = s.vf := rfl
@[simp] theorem output_nf (v : Byte) : (s.output v).nf = s.nf := rfl
@[simp] theorem output_zf (v : Byte) : (s.output v).zf = s.zf := rfl
@[simp] theorem output_mem (v : Byte) : (s.output v).mem = s.mem := rfl
@[simp] theorem output_obuf (v : Byte) : (s.output v).obuf = v := rfl
@[simp] theorem output_ibuf (v : Byte) : (s.output v).ibuf = s.ibuf := rfl
@[simp] theorem output_ibufFlgIn (v : Byte) : (s.output v).ibufFlgIn = s.ibufFlgIn := rfl
@[simp] theorem output_obufFlgIn (v : Byte) : (s.output v).obufFlgIn = s.obufFlgIn := rfl
@[simp] theorem output_run (v : Byte) : (s.output v).run = s.run := rfl
@[simp] theorem output_outTrace (v : Byte) : (s.output v).outTrace = s.outTrace ++ [(s.stepNo, v)] := rfl
@[simp] theorem output_stepNo (v : Byte) : (s.output v).stepNo = s.stepNo := rfl
@[simp] theorem output_reg (v : Byte) (r : Reg) : (s.output v).reg r = s.reg r := by cases r <;> rfl

@[simp] theorem halt_acc : (s.halt).acc = s.acc := rfl
@[simp] theorem halt_ix : (s.halt).ix = s.ix := rfl
@[simp] theorem halt_pc : (s.halt).pc = s.pc := rfl
@[simp] theorem halt_ir : (s.halt).ir = s.ir := rfl
@[simp] theorem halt_cf : (s.halt).cf = s.cf := rfl
@[simp] theorem halt_vf : (s.halt).vf = s.vf := rfl
@[simp] theorem halt_nf : (s.halt).nf = s.nf := rfl
@[simp] theorem halt_zf : (s.halt).zf = s.zf := rfl
@[simp] theorem halt_mem : (s.halt).mem = s.mem := rfl
@[simp] theorem halt_obuf : (s.halt).obuf = s.obuf := rfl
@[simp] theorem halt_ibuf : (s.halt).ibuf = s.ibuf := rfl
@[simp] theorem halt_ibufFlgIn : (s.halt).ibufFlgIn = s.ibufFlgIn := rfl
@[simp] theorem halt_obufFlgIn : (s.halt).obufFlgIn = s.obufFlgIn := rfl
@[simp] theorem halt_run : (s.halt).run = .halted := rfl
@[simp] theorem halt_outTrace : (s.halt).outTrace = s.outTrace := rfl
@[simp] theorem halt_stepNo : (s.halt).stepNo = s.stepNo := rfl
@[simp] theorem halt_reg (r : Reg) : (s.halt).reg r = s.reg r := by cases r <;> rfl

@[simp] theorem endStep_acc : (s.endStep).acc = s.acc := rfl
@[simp] theorem endStep_ix : (s.endStep).ix = s.ix := rfl
@[simp] theorem endStep_pc : (s.endStep).pc = s.pc := rfl
@[simp] theorem endStep_ir : (s.endStep).ir = s.ir := rfl
@[simp] theorem endStep_cf : (s.endStep).cf = s.cf := rfl
@[simp] theorem endStep_vf : (s.endStep).vf = s.vf := rfl
@[simp] theorem endStep_nf : (s.endStep).nf = s.nf := rfl
@[simp] theorem endStep_zf : (s.endStep).zf = s.zf := rfl
@[simp] theorem endStep_mem : (s.endStep).mem = s.mem := rfl
@[simp] theorem endStep_obuf : (s.endStep).obuf = s.obuf := rfl
@[simp] theorem endStep_ibuf : (s.endStep).ibuf = Config.ibufAt (s.stepNo + 1) := rfl
@[simp] theorem endStep_ibufFlgIn : (s.endStep).ibufFlgIn = Config.ibufFlgAt (s.stepNo + 1) := rfl
@[simp] theorem endStep_obufFlgIn : (s.endStep).obufFlgIn = Config.obufFlgAt (s.stepNo + 1) := rfl
@[simp] theorem endStep_run : (s.endStep).run = s.run := rfl
@[simp] theorem endStep_outTrace : (s.endStep).outTrace = s.outTrace := rfl
@[simp] theorem endStep_stepNo : (s.endStep).stepNo = s.stepNo + 1 := rfl
@[simp] theorem endStep_reg (r : Reg) : (s.endStep).reg r = s.reg r := by cases r <;> rfl

@[simp] theorem val2_reg (b : Reg) : s.val2 (.reg b) = s.reg b := rfl
@[simp] theorem val2_imm (d : Byte) : s.val2 (.imm d) = d := rfl
@[simp] theorem val2_mem (m : MemMode) (d : Byte) : s.val2 (.mem m d) = s.mem.read (s.ea m d) := rfl

end Sys2Proof.Machine
end

