-- ==== Sys2Proof/Laws/Ops.lean ====
section
/-! SUPPORT. For each shared operation, and for fetch and step, one lemma that says all it can do. -/

namespace Sys2Proof.Machine

variable {s t : State}

theorem branchIf_next {c : Bool} {d : Byte} :
    branchIf c d s = .next t ↔ t = s.setPc (if c then d else s.pc) := by
  simp [branchIf, eq_comm]

theorem shiftTo_next {a : Reg} {r : Byte} {out vf : Bool} :
    shiftTo a r out vf s = .next t ↔ t = (s.setReg a r).setFlags out vf (negFlag r) (zeroFlag r) := by
  simp [shiftTo, eq_comm]

theorem loadTo_next {a : Reg} {o : Operand2} : loadTo a o s = .next t ↔ t = s.setReg a (s.val2 o) := by
  simp [loadTo, eq_comm]

theorem execStMem_next {a : Reg} {m : MemMode} {d : Byte} :
    execStMem a m d s = .next t ↔ t = s.store (s.ea m d) (s.reg a) := by
  simp [execStMem, eq_comm]

theorem arithCarry_next {f : Byte → Byte → Bool → ArithOut} {a : Reg} {o : Operand2} :
    arithCarry f a o s = .next t ↔
      t = (s.setReg a (f (s.reg a) (s.val2 o) s.cf).r).setFlags (f (s.reg a) (s.val2 o) s.cf).c
        (f (s.reg a) (s.val2 o) s.cf).v (negFlag (f (s.reg a) (s.val2 o) s.cf).r)
        (zeroFlag (f (s.reg a) (s.val2 o) s.cf).r) := by
  simp [arithCarry, eq_comm]

theorem arithPlain_next {f : Byte → Byte → Bool → ArithOut} {a : Reg} {o : Operand2} :
    arithPlain f a o s = .next t ↔
      t = (s.setReg a (f (s.reg a) (s.val2 o) false).r).setVnz (f (s.reg a) (s.val2 o) false).v
        (negFlag (f (s.reg a) (s.val2 o) false).r) (zeroFlag (f (s.reg a) (s.val2 o) false).r) := by
  simp [arithPlain, eq_comm]

theorem logicTo_next {f : Byte → Byte → Byte} {a : Reg} {o : Operand2} :
    logicTo f a o s = .next t ↔
      t = (s.setReg a (f (s.reg a) (s.val2 o))).setVnz false (negFlag (f (s.reg a) (s.val2 o)))
        (zeroFlag (f (s.reg a) (s.val2 o))) := by
  simp [logicTo, eq_comm]

theorem compareTo_next {a : Reg} {o : Operand2} :
    compareTo a o s = .next t ↔
      t = s.setVnz (subOut (s.reg a) (s.val2 o) false).v (negFlag (subOut (s.reg a) (s.val2 o) false).r)
        (zeroFlag (subOut (s.reg a) (s.val2 o) false).r) := by
  simp [compareTo, eq_comm]

theorem raiseIllegal_ne_next {b : Byte} : raiseIllegal b ≠ .next t := by simp [raiseIllegal]

theorem execUnused5x_next : execUnused5x s = .next t ↔ t = s.halt := by
  simp [execUnused5x, Config.unused5xIsHlt, eq_comm]

/-- What a fetch leaves (rules R14 and R18): pc past the whole instruction, its first byte in IR, nothing else. -/
theorem fetch_state (s : State) :
    s.fetch.2 = { s with
      pc := s.pc + BitVec.ofNat 8 (lengthOfFirst (s.mem.read (progAddr s.pc)))
      ir := s.mem.read (progAddr s.pc) } := by
  simp only [State.fetch, State.fetchByte, State.setPc, lengthOfFirst]
  cases decodeFirst (s.mem.read (progAddr s.pc)) with
  | whole i => rfl
  | needsSecond f => simp [BitVec.add_assoc]

/-- What a step can do: it is a running state's fetched instruction, and then the environment's new levels. -/
theorem step_next : step s = .next t ↔
    s.run = .running ∧ ∃ u, exec s.fetch.1 s.fetch.2 = .next u ∧ t = u.endStep := by
  unfold step
  cases s.run with
  | halted => simp
  | running => cases exec s.fetch.1 s.fetch.2 <;> simp [eq_comm]

end Sys2Proof.Machine
end

