-- ==== Sys2Proof/Laws/PerInstr.lean ====
section
/-! SUPPORT. What holds of every instruction as syntax, one lemma per constructor. -/

namespace Sys2Proof.Laws

/-- The first byte of an instruction's encoding tells the length of the whole encoding (rules R54 and R55). -/
def EncodedLength.Statement (i : Instr) : Prop :=
  (encode i).head?.map lengthOfFirst = some (encode i).length

end Sys2Proof.Laws

namespace Sys2Proof.Laws.EncodedLength

theorem nop : Statement (.nop) := rfl
theorem hlt : Statement (.hlt) := rfl
theorem out : Statement (.out) := rfl
theorem inp : Statement (.inp) := rfl
theorem rcf : Statement (.rcf) := rfl
theorem scf : Statement (.scf) := rfl
theorem unused5x : Statement (.unused5x) := rfl
theorem ba (d : Byte) : Statement (.ba d) := rfl
theorem bvf (d : Byte) : Statement (.bvf d) := rfl
theorem bnz (d : Byte) : Statement (.bnz d) := rfl
theorem bz (d : Byte) : Statement (.bz d) := rfl
theorem bzp (d : Byte) : Statement (.bzp d) := rfl
theorem bn (d : Byte) : Statement (.bn d) := rfl
theorem bp (d : Byte) : Statement (.bp d) := rfl
theorem bzn (d : Byte) : Statement (.bzn d) := rfl
theorem bni (d : Byte) : Statement (.bni d) := rfl
theorem bno (d : Byte) : Statement (.bno d) := rfl
theorem bnc (d : Byte) : Statement (.bnc d) := rfl
theorem bc (d : Byte) : Statement (.bc d) := rfl
theorem bge (d : Byte) : Statement (.bge d) := rfl
theorem blt (d : Byte) : Statement (.blt d) := rfl
theorem bgt (d : Byte) : Statement (.bgt d) := rfl
theorem ble (d : Byte) : Statement (.ble d) := rfl
theorem sra (a : Reg) : Statement (.sra a) := by cases a <;> rfl
theorem sla (a : Reg) : Statement (.sla a) := by cases a <;> rfl
theorem srl (a : Reg) : Statement (.srl a) := by cases a <;> rfl
theorem sll (a : Reg) : Statement (.sll a) := by cases a <;> rfl
theorem rra (a : Reg) : Statement (.rra a) := by cases a <;> rfl
theorem rla (a : Reg) : Statement (.rla a) := by cases a <;> rfl
theorem rrl (a : Reg) : Statement (.rrl a) := by cases a <;> rfl
theorem rll (a : Reg) : Statement (.rll a) := by cases a <;> rfl
theorem ldReg (a b : Reg) : Statement (.ldReg a b) := by cases a <;> cases b <;> rfl
theorem ldImm (a : Reg) (d : Byte) : Statement (.ldImm a d) := by cases a <;> rfl
theorem ldMem (a : Reg) (m : MemMode) (d : Byte) : Statement (.ldMem a m d) := by cases a <;> cases m <;> rfl
theorem stIllegal (a : Reg) (b : BitVec 2) : Statement (.stIllegal a b) := by
  cases a <;> (unfold Statement; revert b; decide)
theorem stMem (a : Reg) (m : MemMode) (d : Byte) : Statement (.stMem a m d) := by cases a <;> cases m <;> rfl
theorem sbcReg (a b : Reg) : Statement (.sbcReg a b) := by cases a <;> cases b <;> rfl
theorem sbcImm (a : Reg) (d : Byte) : Statement (.sbcImm a d) := by cases a <;> rfl
theorem sbcMem (a : Reg) (m : MemMode) (d : Byte) : Statement (.sbcMem a m d) := by cases a <;> cases m <;> rfl
theorem adcReg (a b : Reg) : Statement (.adcReg a b) := by cases a <;> cases b <;> rfl
theorem adcImm (a : Reg) (d : Byte) : Statement (.adcImm a d) := by cases a <;> rfl
theorem adcMem (a : Reg) (m : MemMode) (d : Byte) : Statement (.adcMem a m d) := by cases a <;> cases m <;> rfl
theorem subReg (a b : Reg) : Statement (.subReg a b) := by cases a <;> cases b <;> rfl
theorem subImm (a : Reg) (d : Byte) : Statement (.subImm a d) := by cases a <;> rfl
theorem subMem (a : Reg) (m : MemMode) (d : Byte) : Statement (.subMem a m d) := by cases a <;> cases m <;> rfl
theorem addReg (a b : Reg) : Statement (.addReg a b) := by cases a <;> cases b <;> rfl
theorem addImm (a : Reg) (d : Byte) : Statement (.addImm a d) := by cases a <;> rfl
theorem addMem (a : Reg) (m : MemMode) (d : Byte) : Statement (.addMem a m d) := by cases a <;> cases m <;> rfl
theorem eorReg (a b : Reg) : Statement (.eorReg a b) := by cases a <;> cases b <;> rfl
theorem eorImm (a : Reg) (d : Byte) : Statement (.eorImm a d) := by cases a <;> rfl
theorem eorMem (a : Reg) (m : MemMode) (d : Byte) : Statement (.eorMem a m d) := by cases a <;> cases m <;> rfl
theorem orReg (a b : Reg) : Statement (.orReg a b) := by cases a <;> cases b <;> rfl
theorem orImm (a : Reg) (d : Byte) : Statement (.orImm a d) := by cases a <;> rfl
theorem orMem (a : Reg) (m : MemMode) (d : Byte) : Statement (.orMem a m d) := by cases a <;> cases m <;> rfl
theorem andReg (a b : Reg) : Statement (.andReg a b) := by cases a <;> cases b <;> rfl
theorem andImm (a : Reg) (d : Byte) : Statement (.andImm a d) := by cases a <;> rfl
theorem andMem (a : Reg) (m : MemMode) (d : Byte) : Statement (.andMem a m d) := by cases a <;> cases m <;> rfl
theorem cmpReg (a b : Reg) : Statement (.cmpReg a b) := by cases a <;> cases b <;> rfl
theorem cmpImm (a : Reg) (d : Byte) : Statement (.cmpImm a d) := by cases a <;> rfl
theorem cmpMem (a : Reg) (m : MemMode) (d : Byte) : Statement (.cmpMem a m d) := by cases a <;> cases m <;> rfl

end Sys2Proof.Laws.EncodedLength
end

