-- ==== Sys2Proof/Tests/Slice0.lean ====
section
/-! SUPPORT. The model's own tests: expected values from spec/95_test_vectors.md, and for each statement with
hypotheses a state and operands that meet them. -/

namespace Sys2Proof.Tests

open Sys2Proof.Machine Sys2Proof.Claims

/-! ### Helpers -/

/-- A running state at `pc` with given registers, flags and memory, every input 0. -/
def at_ (pc acc ix : Byte) (c v n z : Bool) (m : Memory) : State :=
  { acc := acc, ix := ix, pc := pc, ir := 0, cf := c, vf := v, nf := n, zf := z, mem := m, obuf := 0, ibuf := 0x77,
    ibufFlgIn := false, obufFlgIn := false, run := .running, outTrace := [], stepNo := 0 }

/-- The registers, PC and the flags. -/
structure Regs where
  acc : Byte
  ix : Byte
  pc : Byte
  cf : Bool
  vf : Bool
  nf : Bool
  zf : Bool
  deriving DecidableEq, Repr

/-- What a step leaves of the registers, PC and the flags. -/
def after (s : State) : Option Regs :=
  match step s with
  | .next t => some ⟨t.acc, t.ix, t.pc, t.cf, t.vf, t.nf, t.zf⟩
  | _ => none

/-- What a step leaves in one byte of memory. -/
def byteAfter (s : State) (a : Addr) : Option Byte :=
  match step s with
  | .next t => some (t.mem.read a)
  | _ => none

/-- The start state of 95_test_vectors.md B2, with one byte at PC. -/
def b2 (b : Byte) : State := at_ 0x10 0xA5 0x3C true true true true (Memory.write [] 0x010 b)

/-- The start state of B5, with two bytes at PC. -/
def b5 (b d : Byte) : State :=
  at_ 0x20 0x11 0xFE true false true false
    [(0x003, 0xA3), (0x005, 0xA1), (0x020, b), (0x021, d), (0x103, 0xB3), (0x105, 0xB1)]

/-- The start state of the whole-instruction vectors of B6, with two bytes at PC. -/
def b6 (b d : Byte) : State :=
  at_ 0x30 0xF0 0x0F true true false false [(0x030, b), (0x031, d), (0x110, 0x25)]

/-- A one-byte instruction on ACC with a carry before. -/
def one (b acc : Byte) (c : Bool) : State := at_ 0x00 acc 0x00 c true true true [(0x000, b)]

/-! ### WellFormed -/

theorem test_illegal_st_is_ill_formed : WellFormed (.stIllegal .acc 0) = false := rfl
theorem test_st_is_well_formed : WellFormed (.stMem .acc .absProg 0) = true := rfl

/-! ### Decoding, every constructor by a word written out from rules R51 to R54 and R57 to R59 -/

theorem test_decode_type1 :
    decode [0b00000101] = .ok (.nop, []) ∧ decode [0b00001111] = .ok (.hlt, []) ∧
    decode [0b00010111] = .ok (.out, []) ∧ decode [0b00011111] = .ok (.inp, []) ∧
    decode [0b00100000] = .ok (.rcf, []) ∧ decode [0b00101111] = .ok (.scf, []) ∧
    decode [0b01010101] = .ok (.unused5x, []) := ⟨rfl, rfl, rfl, rfl, rfl, rfl, rfl⟩

theorem test_decode_branches :
    decode [0b00110000, 0x40] = .ok (.ba 0x40, []) ∧
    decode [0b00111000, 0x40] = .ok (.bvf 0x40, []) ∧
    decode [0b00110001, 0x40] = .ok (.bnz 0x40, []) ∧
    decode [0b00111001, 0x40] = .ok (.bz 0x40, []) ∧
    decode [0b00110010, 0x40] = .ok (.bzp 0x40, []) ∧
    decode [0b00111010, 0x40] = .ok (.bn 0x40, []) ∧
    decode [0b00110011, 0x40] = .ok (.bp 0x40, []) ∧
    decode [0b00111011, 0x40] = .ok (.bzn 0x40, []) ∧
    decode [0b00110100, 0x40] = .ok (.bni 0x40, []) ∧
    decode [0b00111100, 0x40] = .ok (.bno 0x40, []) ∧
    decode [0b00110101, 0x40] = .ok (.bnc 0x40, []) ∧
    decode [0b00111101, 0x40] = .ok (.bc 0x40, []) ∧
    decode [0b00110110, 0x40] = .ok (.bge 0x40, []) ∧
    decode [0b00111110, 0x40] = .ok (.blt 0x40, []) ∧
    decode [0b00110111, 0x40] = .ok (.bgt 0x40, []) ∧
    decode [0b00111111, 0x40] = .ok (.ble 0x40, []) :=
  ⟨rfl, rfl, rfl, rfl, rfl, rfl, rfl, rfl, rfl, rfl, rfl, rfl, rfl, rfl, rfl, rfl⟩

theorem test_decode_shifts :
    decode [0b01000000] = .ok (.sra .acc, []) ∧
    decode [0b01001001] = .ok (.sla .ix, []) ∧
    decode [0b01000010] = .ok (.srl .acc, []) ∧
    decode [0b01001011] = .ok (.sll .ix, []) ∧
    decode [0b01000100] = .ok (.rra .acc, []) ∧
    decode [0b01001101] = .ok (.rla .ix, []) ∧
    decode [0b01000110] = .ok (.rrl .acc, []) ∧
    decode [0b01001111] = .ok (.rll .ix, []) :=
  ⟨rfl, rfl, rfl, rfl, rfl, rfl, rfl, rfl⟩

theorem test_decode_ld :
    decode [0b01101000, 0x05] = .ok (.ldReg .ix .acc, [0x05]) ∧ decode [0b01100011, 0x05] = .ok (.ldImm .acc 0x05, []) ∧
    decode [0b01100100, 0x05] = .ok (.ldMem .acc .absProg 0x05, []) := ⟨rfl, rfl, rfl⟩

theorem test_decode_sbc :
    decode [0b10001000, 0x05] = .ok (.sbcReg .ix .acc, [0x05]) ∧ decode [0b10000011, 0x05] = .ok (.sbcImm .acc 0x05, []) ∧
    decode [0b10000101, 0x05] = .ok (.sbcMem .acc .absData 0x05, []) := ⟨rfl, rfl, rfl⟩

theorem test_decode_adc :
    decode [0b10011000, 0x05] = .ok (.adcReg .ix .acc, [0x05]) ∧ decode [0b10010011, 0x05] = .ok (.adcImm .acc 0x05, []) ∧
    decode [0b10010110, 0x05] = .ok (.adcMem .acc .idxProg 0x05, []) := ⟨rfl, rfl, rfl⟩

theorem test_decode_sub :
    decode [0b10101000, 0x05] = .ok (.subReg .ix .acc, [0x05]) ∧ decode [0b10100011, 0x05] = .ok (.subImm .acc 0x05, []) ∧
    decode [0b10100111, 0x05] = .ok (.subMem .acc .idxData 0x05, []) := ⟨rfl, rfl, rfl⟩

theorem test_decode_add :
    decode [0b10111000, 0x05] = .ok (.addReg .ix .acc, [0x05]) ∧ decode [0b10110011, 0x05] = .ok (.addImm .acc 0x05, []) ∧
    decode [0b10110100, 0x05] = .ok (.addMem .acc .absProg 0x05, []) := ⟨rfl, rfl, rfl⟩

theorem test_decode_eor :
    decode [0b11001000, 0x05] = .ok (.eorReg .ix .acc, [0x05]) ∧ decode [0b11000011, 0x05] = .ok (.eorImm .acc 0x05, []) ∧
    decode [0b11000101, 0x05] = .ok (.eorMem .acc .absData 0x05, []) := ⟨rfl, rfl, rfl⟩

theorem test_decode_or :
    decode [0b11011000, 0x05] = .ok (.orReg .ix .acc, [0x05]) ∧ decode [0b11010011, 0x05] = .ok (.orImm .acc 0x05, []) ∧
    decode [0b11010110, 0x05] = .ok (.orMem .acc .idxProg 0x05, []) := ⟨rfl, rfl, rfl⟩

theorem test_decode_and :
    decode [0b11101000, 0x05] = .ok (.andReg .ix .acc, [0x05]) ∧ decode [0b11100011, 0x05] = .ok (.andImm .acc 0x05, []) ∧
    decode [0b11100111, 0x05] = .ok (.andMem .acc .idxData 0x05, []) := ⟨rfl, rfl, rfl⟩

theorem test_decode_cmp :
    decode [0b11111000, 0x05] = .ok (.cmpReg .ix .acc, [0x05]) ∧ decode [0b11110011, 0x05] = .ok (.cmpImm .acc 0x05, []) ∧
    decode [0b11110100, 0x05] = .ok (.cmpMem .acc .absProg 0x05, []) := ⟨rfl, rfl, rfl⟩

theorem test_decode_st :
    decode [0b01111011] = .ok (.stIllegal .ix 0b11, []) ∧ decode [0b01110101, 0x80] = .ok (.stMem .acc .absData 0x80, []) ∧
    decode [0b01111110, 0x80] = .ok (.stMem .ix .idxProg 0x80, []) := ⟨rfl, rfl, rfl⟩

theorem test_decode_too_short :
    decode [] = .error .noFirstByte ∧ decode [0x30] = .error .noSecondByte := ⟨rfl, rfl⟩

theorem test_table_word : decodeTableWord 16 0x806C = some (.ldMem .ix .absProg 0x80) := by decide

/-! ### Type 1 (B2) -/

theorem test_nop : after (b2 0x05) = some ⟨0xA5, 0x3C, 0x11, true, true, true, true⟩ := by decide
theorem test_nop_wraps : after (at_ 0xFF 0 0 false false false false []) = some ⟨0, 0, 0x00, false, false, false, false⟩ := by decide
theorem test_in : after (b2 0x1F) = some ⟨0x77, 0x3C, 0x11, true, true, true, true⟩ := by decide
theorem test_rcf : after (b2 0x20) = some ⟨0xA5, 0x3C, 0x11, false, true, true, true⟩ := by decide
theorem test_scf : after (one 0x2F 0x00 false) = some ⟨0x00, 0x00, 0x01, true, true, true, true⟩ := by decide
theorem test_out :
    (match step (b2 0x10) with | .next t => some (t.obuf, t.acc, t.outTrace, t.pc) | _ => none) =
      some (0xA5, 0xA5, [(0, 0xA5)], 0x11) := by decide
theorem test_hlt :
    (match step (b2 0x0F) with | .next t => some (t.run, t.pc) | _ => none) = some (.halted, 0x11) := by decide
theorem test_unused5x :
    (match step (b2 0x55) with | .next t => some (t.run, t.pc) | _ => none) = some (.halted, 0x11) := by decide
theorem test_halted_has_no_step : step { b2 0x00 with run := .halted } = .fault .halted := rfl

/-! ### Branches (B3): the byte and 0x40 at 010, taken to 0x40, else to 0x12; flags CF VF NF ZF -/

def b3 (b : Byte) (c v n z : Bool) : Option Byte :=
  match step (at_ 0x10 0 0 c v n z [(0x010, b), (0x011, 0x40)]) with
  | .next t => some t.pc
  | _ => none

theorem test_ba : b3 0b00110000 true true true true = some 0x40 := by decide
theorem test_bvf : b3 0b00111000 false false false false = some 0x12 ∧ b3 0b00111000 false true false false = some 0x40 := by decide
theorem test_bnz : b3 0b00110001 true true true true = some 0x12 ∧ b3 0b00110001 true true true false = some 0x40 := by decide
theorem test_bz : b3 0b00111001 false false false false = some 0x12 ∧ b3 0b00111001 false false false true = some 0x40 := by decide
theorem test_bzp : b3 0b00110010 true true true true = some 0x12 ∧ b3 0b00110010 true true false true = some 0x40 := by decide
theorem test_bn : b3 0b00111010 false false false false = some 0x12 ∧ b3 0b00111010 false false true false = some 0x40 := by decide
theorem test_bp : b3 0b00110011 true true true true = some 0x12 ∧ b3 0b00110011 true true false false = some 0x40 := by decide
theorem test_bzn : b3 0b00111011 false false false false = some 0x12 ∧ b3 0b00111011 false false false true = some 0x40 := by decide
theorem test_bnc : b3 0b00110101 true true true true = some 0x12 ∧ b3 0b00110101 false true true true = some 0x40 := by decide
theorem test_bc : b3 0b00111101 false false false false = some 0x12 ∧ b3 0b00111101 true false false false = some 0x40 := by decide
theorem test_bge : b3 0b00110110 false true true false = some 0x40 ∧ b3 0b00110110 false true false true = some 0x12 := by decide
theorem test_blt : b3 0b00111110 false true true false = some 0x12 ∧ b3 0b00111110 false true false true = some 0x40 := by decide
theorem test_bgt : b3 0b00110111 false true true false = some 0x40 ∧ b3 0b00110111 false true false true = some 0x12 := by decide
theorem test_ble : b3 0b00111111 false true true false = some 0x12 ∧ b3 0b00111111 false true false true = some 0x40 := by decide
theorem test_bni : b3 0b00110100 true true true true = some 0x40 := by decide
theorem test_bno : b3 0b00111100 true true true true = some 0x12 := by decide

/-! ### Shifts and rotates (B4) -/

theorem test_sra : after (one 0x40 0x80 false) = some ⟨0xC0, 0x00, 0x01, false, false, true, false⟩ := by decide
theorem test_sla : after (one 0x41 0x40 true) = some ⟨0x80, 0x00, 0x01, false, true, true, false⟩ := by decide
theorem test_srl : after (one 0x42 0x81 false) = some ⟨0x40, 0x00, 0x01, true, false, false, false⟩ := by decide
theorem test_sll : after (one 0x43 0x80 false) = some ⟨0x00, 0x00, 0x01, true, false, false, true⟩ := by decide
theorem test_rra : after (one 0x44 0x01 true) = some ⟨0x80, 0x00, 0x01, true, false, true, false⟩ := by decide
theorem test_rla : after (one 0x45 0x80 true) = some ⟨0x01, 0x00, 0x01, true, true, false, false⟩ := by decide
theorem test_rrl : after (one 0x46 0x01 false) = some ⟨0x80, 0x00, 0x01, true, false, true, false⟩ := by decide
theorem test_rll : after (one 0x47 0x81 false) = some ⟨0x03, 0x00, 0x01, true, false, false, false⟩ := by decide

/-! ### LD and ST (B5): flags stay 1 0 1 0 -/

theorem test_ld_reg : after (b5 0x68 0x00) = some ⟨0x11, 0x11, 0x21, true, false, true, false⟩ := by decide
theorem test_ld_imm : after (b5 0x63 0x05) = some ⟨0x05, 0xFE, 0x22, true, false, true, false⟩ := by decide
theorem test_ld_indexed_program : after (b5 0x66 0x05) = some ⟨0xA3, 0xFE, 0x22, true, false, true, false⟩ := by decide
theorem test_ld_indexed_ix : after (b5 0x6F 0x05) = some ⟨0x11, 0xB3, 0x22, true, false, true, false⟩ := by decide
theorem test_st_data : byteAfter (b5 0x75 0x05) 0x105 = some 0x11 := by decide
theorem test_st_own_byte :
    byteAfter (b5 0x7E 0x23) 0x021 = some 0xFE ∧ (after (b5 0x7E 0x23)).map Regs.pc = some 0x22 := by decide
theorem test_st_illegal : step (b5 0x73 0x05) = .fault (.illegalEncoding 0x73) := rfl
theorem test_st_illegal_last : step (b5 0x7B 0x05) = .fault (.illegalEncoding 0x7B) := rfl

/-- P7: an instruction across the end of the program area. -/
theorem test_instruction_wraps :
    after (at_ 0xFF 0 0 false false false false [(0x000, 0x5A), (0x0FF, 0x62)]) =
      some ⟨0x5A, 0, 0x01, false, false, false, false⟩ := by decide

/-! ### Arithmetic and logic: the whole-instruction vectors of B6, and corner rows on ACC with an immediate -/

def immOp (b acc d : Byte) (c : Bool) : Option Regs :=
  after (at_ 0x00 acc 0x00 c true true true [(0x000, b), (0x001, d)])

theorem test_add_data : after (b6 0xB5 0x10) = some ⟨0x15, 0x0F, 0x32, true, false, false, false⟩ := by decide
theorem test_add_overflow : immOp 0xB2 0x7F 0x01 false = some ⟨0x80, 0x00, 0x02, false, true, true, false⟩ := by decide
theorem test_adc_data : after (b6 0x95 0x10) = some ⟨0x16, 0x0F, 0x32, true, false, false, false⟩ := by decide
theorem test_adc_wraps : immOp 0x92 0xFF 0xFF true = some ⟨0xFF, 0x00, 0x02, true, false, true, false⟩ := by decide
theorem test_sub_reg : after (b6 0xA8 0x01) = some ⟨0xF0, 0x1F, 0x31, true, false, false, false⟩ := by decide
theorem test_sub_overflow : immOp 0xA2 0x80 0x01 false = some ⟨0x7F, 0x00, 0x02, false, true, false, false⟩ := by decide
theorem test_sbc_reg : after (b6 0x88 0x01) = some ⟨0xF0, 0x1E, 0x31, true, false, false, false⟩ := by decide
theorem test_sbc_borrow : immOp 0x82 0x00 0xFF true = some ⟨0x00, 0x00, 0x02, true, false, false, true⟩ := by decide
theorem test_cmp_indexed : after (b6 0xFF 0x01) = some ⟨0xF0, 0x0F, 0x32, true, false, true, false⟩ := by decide
theorem test_cmp_imm : after (b6 0xF2 0xF0) = some ⟨0xF0, 0x0F, 0x32, true, false, false, true⟩ := by decide
theorem test_eor_self : after (b6 0xC0 0x01) = some ⟨0x00, 0x0F, 0x31, true, false, false, true⟩ := by decide
theorem test_eor_imm : immOp 0xC2 0x5A 0xFF true = some ⟨0xA5, 0x00, 0x02, true, false, true, false⟩ := by decide
theorem test_or_self : after (b6 0xD9 0x01) = some ⟨0xF0, 0x0F, 0x31, true, false, false, false⟩ := by decide
theorem test_or_imm : immOp 0xD2 0xF0 0x3C false = some ⟨0xFC, 0x00, 0x02, false, false, true, false⟩ := by decide
theorem test_and_imm : after (b6 0xE2 0x0F) = some ⟨0x00, 0x0F, 0x32, true, false, false, true⟩ := by decide
theorem test_and_keeps : immOp 0xE2 0xF0 0x3C false = some ⟨0x30, 0x00, 0x02, false, false, false, false⟩ := by decide

/-! ### Placing an instruction -/

theorem test_first_instruction_after_reset :
    (match step (State.reset.withFetchWord 16 0x5A62) with | .next t => some (t.acc, t.pc) | _ => none) =
      some (0x5A, 0x02) := by decide

/-! ### A state and operands for the hypotheses of each statement -/

theorem witness_StepRunsDecodedInstruction : (b5 0x62 0x05).run = .running ∧
    decode [(b5 0x62 0x05).mem.read (progAddr 0x20), (b5 0x62 0x05).mem.read (progAddr (0x20 + 1))] =
      .ok (.ldImm .acc 0x05, []) := ⟨rfl, rfl⟩

theorem witness_DontCareBitsDecodeAlike : SameCode 0x28 0x2F ∧ SameCode 0x50 0x5F ∧ SameCode 0x62 0x63 ∧
    SameCode 0xFB 0xFA ∧ SameCode 0x30 0x30 ∧ SameCode 0x7B 0x7B := by unfold SameCode; decide

theorem witness_LegalByteSteps : (b5 0x74 0x05).run = .running ∧ ¬ IllegalByte (byteAtPc (b5 0x74 0x05)) ∧
    ¬ IllegalByte 0x6F ∧ ¬ IllegalByte 0x77 ∧ ¬ IllegalByte 0x7C ∧ ¬ IllegalByte 0x80 := by unfold IllegalByte; decide

theorem witness_safe_state : (b2 0x00).run = .running ∧ (b2 0x00).safe :=
  ⟨rfl, fun _ h => by cases h⟩

theorem witness_IllegalEncodingExactly : (b5 0x70 0x05).run = .running ∧ byteAtPc (b5 0x70 0x05) = 0x70 ∧
    IllegalByte 0x70 ∧ IllegalByte 0x73 ∧ IllegalByte 0x78 ∧ IllegalByte 0x7B := by unfold IllegalByte; decide

/-- Two states with one program area and different data areas. -/
theorem witness_FetchReadsProgramAreaOnly :
    (at_ 0x20 1 2 true true true true [(0x020, 0x62), (0x100, 0x01)]).pc =
      (at_ 0x20 0 0 false false false false [(0x020, 0x62), (0x1FF, 0x05)]).pc ∧
    ∀ x : Addr, x.toNat < 256 → (at_ 0x20 1 2 true true true true [(0x020, 0x62), (0x100, 0x01)]).mem.read x =
      (at_ 0x20 0 0 false false false false [(0x020, 0x62), (0x1FF, 0x05)]).mem.read x :=
  ⟨rfl, by decide⟩

theorem witness_PlacedWordIsFetched : State.reset.mem.wf = true ∧ decodeTableWord 16 0x5A62 = some (.ldImm .acc 0x5A) := by
  decide

theorem witness_canonical_memory : Memory.wf [(0x000, 0x01), (0x1FF, 0xFF)] = true := by decide

theorem witness_StepKeepsWellFormed : ∃ t, (b2 0x10).wf = true ∧ step (b2 0x10) = .next t := ⟨_, by decide, rfl⟩

theorem witness_StepKeepsSignOk : ∃ t, (b6 0xB5 0x10).signOk = true ∧ step (b6 0xB5 0x10) = .next t :=
  ⟨_, by decide, rfl⟩

theorem witness_EqualReadsEqualMemory : Memory.wf [(0x080, 0x08)] = true ∧
    ∀ x, Memory.read [(0x080, 0x08)] x = Memory.read (Memory.write [] 0x080 0x08) x := ⟨by decide, fun _ => rfl⟩

theorem witness_OnlyStoreWritesMemory : (b5 0 0).mem.wf = false ∧ (b5 1 1).mem.wf = true ∧
    (∃ t, exec (.stMem .acc .idxData 0x05) (b5 1 1) = .next t) ∧ ∃ t, exec (.ldReg .acc .ix) (b5 1 1) = .next t :=
  ⟨by decide, by decide, ⟨_, rfl⟩, ⟨_, rfl⟩⟩

theorem witness_OnlyListedInstructionsWriteFlags :
    (∃ t, exec (.addImm .acc 1) (b5 1 1) = .next t) ∧ writesCf (.addImm .acc 1) = false ∧
    (∃ t, exec (.ldImm .acc 1) (b5 1 1) = .next t) ∧ writesVnz (.ldImm .acc 1) = false := ⟨⟨_, rfl⟩, rfl, ⟨_, rfl⟩, rfl⟩

theorem witness_UnreadFlagsDoNotMatter : (∃ t, exec (.sla .acc) (b5 1 1) = .next t) ∧ readsCf (.sla .acc) = false ∧
    readsVf (.sla .acc) = false ∧ readsNf (.sla .acc) = false ∧ readsZf (.sla .acc) = false := ⟨⟨_, rfl⟩, rfl, rfl, rfl, rfl⟩

theorem witness_OnlyDestinationRegisterChanges :
    (∃ t, exec (.ldImm .acc 1) (b5 1 1) = .next t) ∧ destination (.ldImm .acc 1) ≠ some .ix ∧
    (∃ t, exec (.cmpImm .acc 1) (b5 1 1) = .next t) ∧ destination (.cmpImm .acc 1) ≠ some .acc :=
  ⟨⟨_, rfl⟩, by decide, ⟨_, rfl⟩, by decide⟩

theorem witness_OnlyBranchesWritePc : (∃ t, exec .nop (b5 1 1) = .next t) ∧ branchTarget .nop = none ∧
    (∃ t, exec (.ba 0x10) (b5 1 1) = .next t) ∧ branchTarget (.ba 0x10) = some 0x10 := ⟨⟨_, rfl⟩, rfl, ⟨_, rfl⟩, rfl⟩

theorem witness_OnlyOutAndHaltTouchTheSystem : ∃ t, exec .rcf (b5 1 1) = .next t ∧ Instr.rcf ≠ .out ∧
    Instr.rcf ≠ .hlt ∧ Instr.rcf ≠ .unused5x := ⟨_, rfl, by decide, by decide, by decide⟩

theorem witness_ObufIsNeverRead : (∃ t, step (b2 0x10) = .next t) ∧ step (b5 0x70 0x05) = .fault (.illegalEncoding 0x70) :=
  ⟨⟨_, rfl⟩, rfl⟩

theorem witness_NopDoesNothing : (b2 0x07).run = .running ∧ (byteAtPc (b2 0x07)).toNat < 0x08 ∧
    (0x00 : Byte).toNat < 0x08 := by decide

theorem witness_CarryFlagInstructions : (0x20 : Byte).toNat / 8 = 4 ∧ (0x27 : Byte).toNat / 8 = 4 ∧
    (0x28 : Byte).toNat / 8 = 5 ∧ (0x2F : Byte).toNat / 8 = 5 := by decide

theorem witness_OutAndInMoveTheAccumulator : (0x10 : Byte).toNat / 8 = 2 ∧ (0x17 : Byte).toNat / 8 = 2 ∧
    (0x18 : Byte).toNat / 8 = 3 ∧ (0x1F : Byte).toNat / 8 = 3 := by decide

theorem witness_HaltEndsTheRun : (b2 0x08).run = .running ∧ (byteAtPc (b2 0x08)).toNat / 8 = 1 ∧
    (byteAtPc (b2 0x0F)).toNat / 8 = 1 ∧ (byteAtPc (b2 0x50)).toNat / 16 = 5 ∧ (byteAtPc (b2 0x5F)).toNat / 16 = 5 := by
  decide

/-- A state for the branch conditions: `b` is CF, NF and both signals, `v` VF, `z` ZF. -/
def condState (b v z : Bool) : State := { at_ 0 0 0 b v b z [] with ibufFlgIn := b, obufFlgIn := b }

/-- Every condition but `always` is met in one state and not met in another. -/
theorem witness_branch_conditions (cc : Cond) :
    (∃ s, CondMet s cc) ∧ (cc ≠ .always → ∃ s, ¬ CondMet s cc) := by
  cases cc <;> refine ⟨?_, fun h => ?_⟩ <;>
    first
    | exact absurd rfl h
    | (refine ⟨condState true true true, ?_⟩; simp [CondMet, condState, at_]; done)
    | (refine ⟨condState false false false, ?_⟩; simp [CondMet, condState, at_]; done)
    | (refine ⟨condState false true false, ?_⟩; simp [CondMet, condState, at_])

/-- The operands of B3's signed table at the corners, both ways round. -/
theorem witness_SignedBranchesCompareOperands :
    (∃ t, exec (aluInstr .cmp .acc (.imm 0x7F)) (at_ 0 0x80 0 true true true true []) = .next t) ∧
    (∃ t, exec (aluInstr .sub .acc (.imm 0x80)) (at_ 0 0x7F 0 true true true true []) = .next t) ∧
    (∃ t, exec (aluInstr .cmp .acc (.imm 0x05)) (at_ 0 0x05 0 true true true true []) = .next t) :=
  ⟨⟨_, rfl⟩, ⟨_, rfl⟩, ⟨_, rfl⟩⟩

theorem witness_BorrowComparesUnsigned : (at_ 0 0x10 0 false true true true []).cf = false ∧
    ∃ t, exec (aluInstr .sbc .acc (.imm 0x20)) (at_ 0 0x10 0 false true true true []) = .next t := ⟨rfl, ⟨_, rfl⟩⟩

theorem witness_SllThenRlaShiftsSixteenBits : ∃ t u, exec (.sll .acc) (b6 0 0) = .next t ∧ exec (.rla .ix) t = .next u :=
  ⟨_, _, rfl, rfl⟩

theorem witness_type_four_bytes : (0x60 : Byte).toNat / 16 = 6 ∧ (0x6F : Byte).toNat / 16 = 6 ∧
    (0x80 : Byte).toNat / 16 = 8 ∧ (0x9F : Byte).toNat / 16 = 9 ∧ (0xA0 : Byte).toNat / 16 = 10 ∧
    (0xBF : Byte).toNat / 16 = 11 ∧ (0xC0 : Byte).toNat / 16 = 12 ∧ (0xDF : Byte).toNat / 16 = 13 ∧
    (0xE0 : Byte).toNat / 16 = 14 ∧ (0xFF : Byte).toNat / 16 = 15 := by decide

theorem witness_EffectiveAddresses : (0x64 : Byte).toNat / 16 = 6 ∧ 4 ≤ (0x64 : Byte).toNat % 8 ∧
    (0x6F : Byte).toNat / 16 = 6 ∧ 4 ≤ (0x6F : Byte).toNat % 8 := by decide

theorem witness_StoreWritesOneByte : (0x74 : Byte).toNat / 16 = 7 ∧ 4 ≤ (0x74 : Byte).toNat % 8 ∧
    (0x7F : Byte).toNat / 16 = 7 ∧ 4 ≤ (0x7F : Byte).toNat % 8 ∧ (b5 1 1).mem.wf = true := by decide

theorem witness_LoadReadsWhatWasStored : ∃ t, (b5 1 1).mem.wf = true ∧
    exec (.stMem .ix .idxData 0x05) (b5 1 1) = .next t := ⟨_, by decide, rfl⟩

theorem witness_StoreIsSeenByNextFetch : ∃ t, (b5 1 1).mem.wf = true ∧ (b5 1 1).ea .absProg 0x20 = progAddr (b5 1 1).pc ∧
    exec (.stMem .acc .absProg 0x20) (b5 1 1) = .next t := ⟨_, by decide, rfl, rfl⟩

theorem witness_sixteen_bit_chains :
    (∃ t u, (at_ 0 0xF0 0x12 false true true true []).cf = false ∧
      exec (aluInstr .adc .acc (.imm 0x25)) (at_ 0 0xF0 0x12 false true true true []) = .next t ∧
      exec (aluInstr .adc .ix (.imm 0x0A)) t = .next u) ∧
    ∃ t u, exec (aluInstr .sbc .acc (.imm 0x25)) (at_ 0 0x10 0x12 false true true true []) = .next t ∧
      exec (aluInstr .sbc .ix (.imm 0x0A)) t = .next u := ⟨⟨_, _, rfl, rfl, rfl⟩, ⟨_, _, rfl, rfl⟩⟩

/-! ### The assembler: lines of the listings S1, S2 and S6 of 95_test_vectors.md -/

/-- The lines of S1 and S2 that show a directive, a label before and after its use, a sum and a comment. -/
def source : List Asm.Text :=
  ["* Data(singned) on data page".toList, "DATA:   EQU 00H".toList, "N:      EQU 80H".toList,
   "LD  IX, [N]    * the length".toList, "CMP ACC, (IX+DATA+1)".toList, "LP2:    BLE SKIP".toList, "BNZ LP2".toList,
   "SKIP:   HLT".toList, "P1:     PROG 10H".toList, "END".toList]

theorem test_assemble :
    Asm.assemble source = some [0x6C, 0x80, 0xF7, 0x01, 0x3F, 0x08, 0x31, 0x04, 0x0F, 0x10] := by decide

theorem test_listing_columns :
    (Asm.listing source).map (List.map (·.addr)) =
      some [none, some 0x00, some 0x80, some 0x00, some 0x02, some 0x04, some 0x06, some 0x08, some 0x09, none] := by
  decide

theorem test_print_entry : Asm.printEntry ⟨some 0x0C, [0x3F, 0x19], "BLE SKIP".toList⟩ = "0C : 3F 19 BLE SKIP".toList := by
  decide

theorem test_single_lines :
    Asm.assemble ["LD ACC, IX".toList] = some [0x61] ∧ Asm.assemble ["LD ACC, 5".toList] = some [0x62, 0x05] ∧
    Asm.assemble ["LD ACC, [IX+5]".toList] = some [0x66, 0x05] ∧ Asm.assemble ["LD ACC, (80H)".toList] = some [0x65, 0x80] ∧
    Asm.assemble ["EOR ACC, 0FFH".toList] = some [0xC2, 0xFF] ∧ Asm.assemble ["SLL ACC".toList] = some [0x43] := by decide

theorem test_assembler_refuses :
    Asm.assemble ["ST ACC, IX".toList] = none ∧ Asm.assemble ["ST ACC, 5".toList] = none ∧
    Asm.assemble ["BA 100H".toList] = none ∧ Asm.assemble ["BA NOWHERE".toList] = none := by decide

theorem test_end_ends_the_source :
    Asm.assemble ["HLT".toList, "END".toList, "? no line".toList] = some [0x0F] ∧
    Asm.assemble ["HLT".toList, "? no line".toList] = none ∧ Asm.assemble ["LAST: END".toList] = none := by decide

theorem witness_EndEndsTheSource : Asm.parseLine "   END  * of S1".toList = some ⟨none, .finish⟩ := by decide

theorem witness_AssembledInstructionIsOne :
    Asm.toInstr (fun _ => none) "CMP".toList [.reg .ix, .mem .idxData [.num 1]] = some (.cmpMem .ix .idxData 1) := rfl

theorem witness_EveryInstructionHasASourceForm : WellFormed (.ba 0xFF) = true ∧ Instr.ba 0xFF ≠ .unused5x := by decide

theorem witness_ListingAddressesAreOffsets : ∃ es, Asm.listing source = some es ∧
    es[4]?.map (·.bytes) = some [0xF7, 0x01] := ⟨_, rfl, rfl⟩

theorem witness_PlacedProgramReadsBack : Memory.wf [] = true ∧ ([0x0F] : List Byte).length ≤ 256 ∧
    (List.replicate 256 (0 : Byte)).length ≤ 256 :=
  ⟨rfl, by decide, by rw [List.length_replicate]⟩

end Sys2Proof.Tests
end

/-! SUPPORT. The instructions by family: one case split over `Instr` that follows the chapters of the spec, and for
each family one equation that says what `exec` does. -/

namespace Sys2Proof.Machine

open Sys2Proof.Claims

/-! ### The families -/

/-- The eight instructions of type 3 (rule R58). -/
inductive ShiftOp where
  | sra | sla | srl | sll | rra | rla | rrl | rll

/-- A shift or rotate of a register. -/
def shiftInstr : ShiftOp → Reg → Instr
  | .sra => .sra
  | .sla => .sla
  | .srl => .srl
  | .sll => .sll
  | .rra => .rra
  | .rla => .rla
  | .rrl => .rrl
  | .rll => .rll

/-- Every instruction is one of type 1, a branch, a shift, LD, ST, or one of arithmetic and logic. -/
theorem instr_by_family {motive : Instr → Prop} (nop : motive .nop) (hlt : motive .hlt) (out : motive .out)
    (inp : motive .inp) (rcf : motive .rcf) (scf : motive .scf) (unused5x : motive .unused5x)
    (branch : ∀ cc d, motive (branchInstr cc d)) (shift : ∀ op a, motive (shiftInstr op a))
    (ld : ∀ a o, motive (ldInstr a o)) (stIllegal : ∀ a b, motive (.stIllegal a b))
    (st : ∀ a m d, motive (.stMem a m d)) (alu : ∀ op a o, motive (aluInstr op a o)) : ∀ i, motive i
  | .nop => nop | .hlt => hlt | .out => out | .inp => inp | .rcf => rcf | .scf => scf | .unused5x => unused5x
  | .ba d => branch .always d | .bvf d => branch .vf d | .bnz d => branch .nz d | .bz d => branch .z d
  | .bzp d => branch .zp d | .bn d => branch .n d | .bp d => branch .p d | .bzn d => branch .zn d
  | .bni d => branch .ni d | .bno d => branch .no d | .bnc d => branch .nc d | .bc d => branch .c d
  | .bge d => branch .ge d | .blt d => branch .lt d | .bgt d => branch .gt d | .ble d => branch .le d
  | .sra a => shift .sra a | .sla a => shift .sla a | .srl a => shift .srl a | .sll a => shift .sll a
  | .rra a => shift .rra a | .rla a => shift .rla a | .rrl a => shift .rrl a | .rll a => shift .rll a
  | .ldReg a b => ld a (.reg b) | .ldImm a d => ld a (.imm d) | .ldMem a m d => ld a (.mem m d)
  | .stIllegal a b => stIllegal a b | .stMem a m d => st a m d
  | .sbcReg a b => alu .sbc a (.reg b) | .sbcImm a d => alu .sbc a (.imm d) | .sbcMem a m d => alu .sbc a (.mem m d)
  | .adcReg a b => alu .adc a (.reg b) | .adcImm a d => alu .adc a (.imm d) | .adcMem a m d => alu .adc a (.mem m d)
  | .subReg a b => alu .sub a (.reg b) | .subImm a d => alu .sub a (.imm d) | .subMem a m d => alu .sub a (.mem m d)
  | .addReg a b => alu .add a (.reg b) | .addImm a d => alu .add a (.imm d) | .addMem a m d => alu .add a (.mem m d)
  | .eorReg a b => alu .eor a (.reg b) | .eorImm a d => alu .eor a (.imm d) | .eorMem a m d => alu .eor a (.mem m d)
  | .orReg a b => alu .orr a (.reg b) | .orImm a d => alu .orr a (.imm d) | .orMem a m d => alu .orr a (.mem m d)
  | .andReg a b => alu .andd a (.reg b) | .andImm a d => alu .andd a (.imm d) | .andMem a m d => alu .andd a (.mem m d)
  | .cmpReg a b => alu .cmp a (.reg b) | .cmpImm a d => alu .cmp a (.imm d) | .cmpMem a m d => alu .cmp a (.mem m d)

/-! ### What a shift or an arithmetic instruction computes and writes -/

/-- The outcome of a right shift of `v` with `top` entering at bit 7. -/
def rightOut (v : Byte) (top : Bool) : ArithOut := ⟨BitVec.ofBool top ++ v.extractLsb' 1 7, v[0], false⟩

/-- The outcome of a left shift of `v` with `low` entering at bit 0. -/
def leftOut (v : Byte) (low vf : Bool) : ArithOut := ⟨v.extractLsb' 0 7 ++ BitVec.ofBool low, v[7], vf⟩

/-- The outcome of a shift of `v` with CF = `c` before. -/
def shiftOut (op : ShiftOp) (v : Byte) (c : Bool) : ArithOut :=
  match op with
  | .sra => rightOut v v[7]
  | .sla => leftOut v false (shiftOverflow v)
  | .srl => rightOut v false
  | .sll => leftOut v false false
  | .rra => rightOut v c
  | .rla => leftOut v c (shiftOverflow v)
  | .rrl => rightOut v v[0]
  | .rll => leftOut v v[7] false

/-- The outcome of an arithmetic or logic instruction with CF = `c` before; where CF is not written, its C is `c`. -/
def aluOut (op : AluOp) (x y : Byte) (c : Bool) : ArithOut :=
  match op with
  | .sbc => subOut x y c
  | .adc => addOut x y c
  | .sub | .cmp => { subOut x y false with c := c }
  | .add => { addOut x y false with c := c }
  | .eor => ⟨x ^^^ y, c, false⟩
  | .orr => ⟨x ||| y, c, false⟩
  | .andd => ⟨x &&& y, c, false⟩

/-- An outcome is written to the destination register, where there is one, and to the four flags. -/
def State.commit (s : State) (dst : Option Reg) (x : ArithOut) : State :=
  (dst.elim s (s.setReg · x.r)).setFlags x.c x.v (negFlag x.r) (zeroFlag x.r)

section Commit

variable (s : State) (dst : Option Reg) (x : ArithOut)

@[simp] theorem commit_pc : (s.commit dst x).pc = s.pc := by cases dst <;> simp [State.commit]
@[simp] theorem commit_ir : (s.commit dst x).ir = s.ir := by cases dst <;> simp [State.commit]
@[simp] theorem commit_cf : (s.commit dst x).cf = x.c := rfl
@[simp] theorem commit_vf : (s.commit dst x).vf = x.v := rfl
@[simp] theorem commit_nf : (s.commit dst x).nf = negFlag x.r := rfl
@[simp] theorem commit_zf : (s.commit dst x).zf = zeroFlag x.r := rfl
@[simp] theorem commit_mem : (s.commit dst x).mem = s.mem := by cases dst <;> simp [State.commit]
@[simp] theorem commit_obuf : (s.commit dst x).obuf = s.obuf := by cases dst <;> simp [State.commit]
@[simp] theorem commit_ibuf : (s.commit dst x).ibuf = s.ibuf := by cases dst <;> simp [State.commit]
@[simp] theorem commit_ibufFlgIn : (s.commit dst x).ibufFlgIn = s.ibufFlgIn := by
  cases dst <;> simp [State.commit]
@[simp] theorem commit_obufFlgIn : (s.commit dst x).obufFlgIn = s.obufFlgIn := by
  cases dst <;> simp [State.commit]
@[simp] theorem commit_run : (s.commit dst x).run = s.run := by cases dst <;> simp [State.commit]
@[simp] theorem commit_outTrace : (s.commit dst x).outTrace = s.outTrace := by cases dst <;> simp [State.commit]
@[simp] theorem commit_stepNo : (s.commit dst x).stepNo = s.stepNo := by cases dst <;> simp [State.commit]

theorem reg_commit (b : Reg) : (s.commit dst x).reg b = if dst = some b then x.r else s.reg b := by
  cases dst with
  | none => simp [State.commit]
  | some a => simp [State.commit, reg_setReg, eq_comm]

/-- Writing CF over an outcome is writing the outcome with that C. -/
theorem setFlags_commit (c : Bool) :
    (s.commit dst x).setFlags c x.v (negFlag x.r) (zeroFlag x.r) = s.commit dst { x with c := c } := rfl

end Commit

/-! ### What `exec` does, an equation per family -/

variable (s : State)

@[simp] theorem exec_nop : exec .nop s = .next s := rfl
@[simp] theorem exec_hlt : exec .hlt s = .next s.halt := rfl
@[simp] theorem exec_out : exec .out s = .next (s.output s.acc) := rfl
@[simp] theorem exec_inp : exec .inp s = .next (s.setReg .acc s.ibuf) := rfl
@[simp] theorem exec_rcf : exec .rcf s = .next (s.setCf false) := rfl
@[simp] theorem exec_scf : exec .scf s = .next (s.setCf true) := rfl

/-- The unused code is HLT (rule R63, decision D9). -/
@[simp] theorem exec_unused5x : exec .unused5x s = .next s.halt := execUnused5x_next.2 rfl

@[simp] theorem exec_stIllegal (a : Reg) (b : BitVec 2) :
    exec (.stIllegal a b) s = .fault (.illegalEncoding (illegalStByte a b)) := rfl

@[simp] theorem exec_stMem (a : Reg) (m : MemMode) (d : Byte) :
    exec (.stMem a m d) s = .next (s.store (s.ea m d) (s.reg a)) := rfl

@[simp] theorem exec_branchInstr (cc : Cond) (d : Byte) :
    exec (branchInstr cc d) s = .next (s.setPc (if s.holds cc then d else s.pc)) := by cases cc <;> rfl

@[simp] theorem exec_ldInstr (a : Reg) (o : Operand2) :
    exec (ldInstr a o) s = .next (s.setReg a (s.val2 o)) := by cases o <;> rfl

@[simp] theorem exec_shiftInstr (op : ShiftOp) (a : Reg) :
    exec (shiftInstr op a) s = .next (s.commit (some a) (shiftOut op (s.reg a) s.cf)) := by cases op <;> rfl

@[simp] theorem exec_aluInstr (op : AluOp) (a : Reg) (o : Operand2) :
    exec (aluInstr op a o) s =
      .next (s.commit (destination (aluInstr op a o)) (aluOut op (s.reg a) (s.val2 o) s.cf)) := by
  cases op <;> cases o <;> cases a <;> rfl

variable {s} {t : State} {i : Instr}

/-- The next states of an instruction, by family. -/
inductive Runs (s : State) : Instr → State → Prop
  | nop : Runs s .nop s
  | hlt : Runs s .hlt s.halt
  | out : Runs s .out (s.output s.acc)
  | inp : Runs s .inp (s.setReg .acc s.ibuf)
  | rcf : Runs s .rcf (s.setCf false)
  | scf : Runs s .scf (s.setCf true)
  | unused5x : Runs s .unused5x s.halt
  | branch (cc : Cond) (d : Byte) : Runs s (branchInstr cc d) (s.setPc (if s.holds cc then d else s.pc))
  | shift (op : ShiftOp) (a : Reg) :
      Runs s (shiftInstr op a) (s.commit (some a) (shiftOut op (s.reg a) s.cf))
  | ld (a : Reg) (o : Operand2) : Runs s (ldInstr a o) (s.setReg a (s.val2 o))
  | st (a : Reg) (m : MemMode) (d : Byte) : Runs s (.stMem a m d) (s.store (s.ea m d) (s.reg a))
  | alu (op : AluOp) (a : Reg) (o : Operand2) :
      Runs s (aluInstr op a o)
        (s.commit (destination (aluInstr op a o)) (aluOut op (s.reg a) (s.val2 o) s.cf))

/-- Everything a next state of `exec` can be, and for which instruction. -/
theorem exec_next : exec i s = .next t ↔ Runs s i t := by
  constructor
  · intro h
    cases i using instr_by_family with
    | stIllegal a b => simp at h
    | _ =>
      simp at h
      subst h
      constructor
  · intro h
    cases h <;> simp

/-- The illegal ST is the only instruction that faults. -/
theorem exec_fault {r : Fault} :
    exec i s = .fault r ↔ ∃ a b, i = .stIllegal a b ∧ r = .illegalEncoding (illegalStByte a b) := by
  constructor
  · intro h
    cases i using instr_by_family with
    | stIllegal a b => exact ⟨a, b, rfl, by simpa [eq_comm] using h⟩
    | _ => simp at h
  · rintro ⟨a, b, rfl, rfl⟩
    exact exec_stIllegal s a b

end Sys2Proof.Machine

/-! SUPPORT. The tables of rule R17, rule R12 and rule R13 by family. -/

namespace Sys2Proof.Machine

open Sys2Proof.Claims

variable (cc : Cond) (sh : ShiftOp) (op : AluOp) (a : Reg) (o : Operand2) (d : Byte)

@[simp] theorem writesCf_branchInstr : writesCf (branchInstr cc d) = false := by cases cc <;> rfl
@[simp] theorem writesVnz_branchInstr : writesVnz (branchInstr cc d) = false := by cases cc <;> rfl
@[simp] theorem branchTarget_branchInstr : branchTarget (branchInstr cc d) = some d := by cases cc <;> rfl

@[simp] theorem writesCf_shiftInstr : writesCf (shiftInstr sh a) = true := by cases sh <;> rfl
@[simp] theorem writesVnz_shiftInstr : writesVnz (shiftInstr sh a) = true := by cases sh <;> rfl
@[simp] theorem branchTarget_shiftInstr : branchTarget (shiftInstr sh a) = none := by cases sh <;> rfl
@[simp] theorem destination_shiftInstr : destination (shiftInstr sh a) = some a := by cases sh <;> rfl

@[simp] theorem writesCf_ldInstr : writesCf (ldInstr a o) = false := by cases o <;> rfl
@[simp] theorem writesVnz_ldInstr : writesVnz (ldInstr a o) = false := by cases o <;> rfl
@[simp] theorem branchTarget_ldInstr : branchTarget (ldInstr a o) = none := by cases o <;> rfl
@[simp] theorem destination_ldInstr : destination (ldInstr a o) = some a := by cases o <;> rfl

@[simp] theorem readsCf_aluInstr : readsCf (aluInstr op a o) = decide (op = .sbc ∨ op = .adc) := by
  cases op <;> cases o <;> rfl
@[simp] theorem writesCf_aluInstr : writesCf (aluInstr op a o) = decide (op = .sbc ∨ op = .adc) := by
  cases op <;> cases o <;> rfl
@[simp] theorem writesVnz_aluInstr : writesVnz (aluInstr op a o) = true := by cases op <;> cases o <;> rfl
@[simp] theorem branchTarget_aluInstr : branchTarget (aluInstr op a o) = none := by cases op <;> cases o <;> rfl

/-- A shift whose CF is not marked as read has the same outcome for every CF. -/
theorem shiftOut_congr {v : Byte} {c c' : Bool} (h : readsCf (shiftInstr sh a) = true → c' = c) :
    shiftOut sh v c' = shiftOut sh v c := by
  cases sh with
  | rra => rw [h rfl]
  | rla => rw [h rfl]
  | _ => rfl

/-- CF before reaches the outcome of an instruction that does not read CF as its C alone, and is then not written. -/
theorem aluOut_congr {x y : Byte} {c c' : Bool} (h : readsCf (aluInstr op a o) = true → c' = c) :
    aluOut op x y c' =
      { aluOut op x y c with c := if writesCf (aluInstr op a o) then (aluOut op x y c).c else c' } := by
  rw [readsCf_aluInstr] at h
  rw [writesCf_aluInstr]
  cases op with
  | sbc => rw [h rfl]; rfl
  | adc => rw [h rfl]; rfl
  | _ => rfl

end Sys2Proof.Machine

/-! SUPPORT. Updates of PC, the flags, and the output side pass by the operations that do not use them. -/

namespace Sys2Proof.Machine

open Sys2Proof.Claims

/-- The output side of the state, OBUF and the output trace, replaced. -/
def State.setOutput (s : State) (v : Byte) (tr : List (Nat × Byte)) : State := { s with obuf := v, outTrace := tr }

variable (s : State)

theorem regOf_eq_reg (a : Reg) : regOf s a = s.reg a := by cases a <;> rfl

section Flags

variable (c v n z : Bool)

@[simp] theorem setFlags_ea (m : MemMode) (d : Byte) : (s.setFlags c v n z).ea m d = s.ea m d := rfl
@[simp] theorem setFlags_val2 (o : Operand2) : (s.setFlags c v n z).val2 o = s.val2 o := by cases o <;> simp
@[simp] theorem setReg_setFlags (a : Reg) (x : Byte) :
    (s.setFlags c v n z).setReg a x = (s.setReg a x).setFlags c v n z := by cases a <;> rfl
@[simp] theorem setFlags_setFlags (c' v' n' z' : Bool) :
    (s.setFlags c v n z).setFlags c' v' n' z' = s.setFlags c' v' n' z' := rfl
@[simp] theorem setPc_setFlags (p : Byte) : (s.setFlags c v n z).setPc p = (s.setPc p).setFlags c v n z := rfl

/-- A branch is taken or not whatever the flags are that do not affect it. -/
theorem setFlags_holds {cc : Cond} {d : Byte} {s : State} {c v n z : Bool}
    (hc : readsCf (branchInstr cc d) = true → c = s.cf) (hv : readsVf (branchInstr cc d) = true → v = s.vf)
    (hn : readsNf (branchInstr cc d) = true → n = s.nf) (hz : readsZf (branchInstr cc d) = true → z = s.zf) :
    (s.setFlags c v n z).holds cc = s.holds cc := by
  cases cc <;> simp_all [State.holds, branchInstr, readsCf, readsVf, readsNf, readsZf]

/-- An outcome is written over any flags. -/
@[simp] theorem commit_setFlags (dst : Option Reg) (x : ArithOut) :
    (s.setFlags c v n z).commit dst x = s.commit dst x := by
  cases dst <;> simp [State.commit]

end Flags

section Output

variable (v : Byte) (tr : List (Nat × Byte))

@[simp] theorem setOutput_pc : (s.setOutput v tr).pc = s.pc := rfl
@[simp] theorem setOutput_acc : (s.setOutput v tr).acc = s.acc := rfl
@[simp] theorem setOutput_ibuf : (s.setOutput v tr).ibuf = s.ibuf := rfl
@[simp] theorem setOutput_cf : (s.setOutput v tr).cf = s.cf := rfl
@[simp] theorem setOutput_mem : (s.setOutput v tr).mem = s.mem := rfl
@[simp] theorem setOutput_run : (s.setOutput v tr).run = s.run := rfl
@[simp] theorem setOutput_reg (a : Reg) : (s.setOutput v tr).reg a = s.reg a := by cases a <;> rfl
@[simp] theorem setOutput_ea (m : MemMode) (d : Byte) : (s.setOutput v tr).ea m d = s.ea m d := rfl
@[simp] theorem setOutput_val2 (o : Operand2) : (s.setOutput v tr).val2 o = s.val2 o := by cases o <;> simp
@[simp] theorem setOutput_holds (cc : Cond) : (s.setOutput v tr).holds cc = s.holds cc := by cases cc <;> rfl
@[simp] theorem setReg_setOutput (a : Reg) (x : Byte) :
    (s.setOutput v tr).setReg a x = (s.setReg a x).setOutput v tr := by cases a <;> rfl
@[simp] theorem setPc_setOutput (p : Byte) : (s.setOutput v tr).setPc p = (s.setPc p).setOutput v tr := rfl
@[simp] theorem setCf_setOutput (c : Bool) : (s.setOutput v tr).setCf c = (s.setCf c).setOutput v tr := rfl
@[simp] theorem setFlags_setOutput (c vf n z : Bool) :
    (s.setOutput v tr).setFlags c vf n z = (s.setFlags c vf n z).setOutput v tr := rfl
@[simp] theorem store_setOutput (a : Addr) (x : Byte) :
    (s.setOutput v tr).store a x = (s.store a x).setOutput v tr := rfl
@[simp] theorem halt_setOutput : (s.setOutput v tr).halt = s.halt.setOutput v tr := rfl
@[simp] theorem endStep_setOutput : (s.setOutput v tr).endStep = s.endStep.setOutput v tr := rfl
@[simp] theorem commit_setOutput (dst : Option Reg) (x : ArithOut) :
    (s.setOutput v tr).commit dst x = (s.commit dst x).setOutput v tr := by
  cases dst <;> simp [State.commit]

end Output

section Pc

variable (p : Byte)

@[simp] theorem setPc_ea (m : MemMode) (d : Byte) : (s.setPc p).ea m d = s.ea m d := rfl
@[simp] theorem setPc_val2 (o : Operand2) : (s.setPc p).val2 o = s.val2 o := by cases o <;> simp
@[simp] theorem setReg_setPc (a : Reg) (x : Byte) : (s.setPc p).setReg a x = (s.setReg a x).setPc p := by
  cases a <;> rfl
@[simp] theorem setCf_setPc (c : Bool) : (s.setPc p).setCf c = (s.setCf c).setPc p := rfl
@[simp] theorem store_setPc (a : Addr) (x : Byte) : (s.setPc p).store a x = (s.store a x).setPc p := rfl
@[simp] theorem output_setPc (x : Byte) : (s.setPc p).output x = (s.output x).setPc p := rfl
@[simp] theorem halt_setPc : (s.setPc p).halt = s.halt.setPc p := rfl
@[simp] theorem commit_setPc (dst : Option Reg) (x : ArithOut) :
    (s.setPc p).commit dst x = (s.commit dst x).setPc p := by
  cases dst <;> simp [State.commit]

end Pc

end Sys2Proof.Machine

/-! SUPPORT. What every instruction leaves unchanged, and what it does not depend on. -/

namespace Sys2Proof.Machine

open Sys2Proof.Claims

variable {i : Instr} {s t : State}

/-! ### Frames -/

/-- Only ST writes memory, at its effective address (rule R35). -/
theorem exec_mem (h : exec i s = .next t) :
    t.mem = s.mem ∨ ∃ a m d, i = .stMem a m d ∧ t.mem = s.mem.write (s.ea m d) (s.reg a) := by
  cases exec_next.1 h with
  | st a m d => exact .inr ⟨a, m, d, rfl, rfl⟩
  | _ => exact .inl (by simp)

theorem exec_inputs (h : exec i s = .next t) :
    t.ibuf = s.ibuf ∧ t.ibufFlgIn = s.ibufFlgIn ∧ t.obufFlgIn = s.obufFlgIn ∧ t.ir = s.ir ∧ t.stepNo = s.stepNo := by
  cases exec_next.1 h <;> simp

theorem exec_output (h : exec i s = .next t) (hi : i ≠ .out) : t.obuf = s.obuf ∧ t.outTrace = s.outTrace := by
  cases exec_next.1 h with
  | out => exact absurd rfl hi
  | _ => simp

theorem exec_run (h : exec i s = .next t) (hlt : i ≠ .hlt) (unused : i ≠ .unused5x) : t.run = s.run := by
  cases exec_next.1 h with
  | hlt => exact absurd rfl hlt
  | unused5x => exact absurd rfl unused
  | _ => simp

theorem exec_reg {a : Reg} (h : exec i s = .next t) (hd : destination i ≠ some a) : t.reg a = s.reg a := by
  cases exec_next.1 h with
  | inp => rw [reg_setReg, if_neg fun ha => hd (by simp [ha, destination])]
  | ld b o => rw [reg_setReg, if_neg fun ha => hd (by simp [ha])]
  | shift op b => rw [reg_commit, if_neg fun ha => hd (by simpa using ha)]
  | alu op b o => rw [reg_commit, if_neg hd]
  | _ => simp

/-! ### Independence -/

/-- Flags an instruction does not read may be replaced: the ones it writes come out the same, the others as given. -/
theorem exec_setFlags {c v n z : Bool} (h : exec i s = .next t)
    (hc : readsCf i = true → c = s.cf) (hv : readsVf i = true → v = s.vf)
    (hn : readsNf i = true → n = s.nf) (hz : readsZf i = true → z = s.zf) :
    exec i (s.setFlags c v n z) =
      .next (t.setFlags (if writesCf i then t.cf else c) (if writesVnz i then t.vf else v)
        (if writesVnz i then t.nf else n) (if writesVnz i then t.zf else z)) := by
  cases exec_next.1 h with
  | branch cc d => simp [setFlags_holds hc hv hn hz]
  | inp => simp [writesCf, writesVnz]
  | shift op a => simp [shiftOut_congr op a hc, setFlags_commit]
  | ld a o => simp
  | alu op a o => simp [aluOut_congr op a o hc, setFlags_commit]
  | _ => rfl

/-- A flag is as before where the instruction does not write it: with the flags replaced by themselves, `exec_setFlags`
gives the same next state. -/
theorem exec_flags (h : exec i s = .next t) :
    t = t.setFlags (if writesCf i then t.cf else s.cf) (if writesVnz i then t.vf else s.vf)
      (if writesVnz i then t.nf else s.nf) (if writesVnz i then t.zf else s.zf) := by
  have same := exec_setFlags h (fun _ => rfl) (fun _ => rfl) (fun _ => rfl) (fun _ => rfl)
  exact Host.Outcome.next.inj (h.symm.trans same)

/-- PC reaches nothing but PC where the instruction is no branch (rule R13). -/
theorem exec_setPc {p : Byte} (h : exec i s = .next t) (hb : branchTarget i = none) :
    exec i (s.setPc p) = .next (t.setPc p) := by
  cases exec_next.1 h with
  | branch cc d => simp at hb
  | _ => simp

theorem exec_branch_pc {d : Byte} (h : exec i s = .next t) (hb : branchTarget i = some d) : t.pc = d ∨ t.pc = s.pc := by
  cases exec_next.1 h with
  | branch cc e =>
    obtain rfl : e = d := by simpa using hb
    exact ite_eq_or_eq _ _ _
  | shift op a => simp at hb
  | ld a o => simp at hb
  | alu op a o => simp at hb
  | _ => cases hb

/-- What was output before reaches nothing but the output side (rule R20). -/
theorem exec_setOutput {v : Byte} {tr : List (Nat × Byte)} (h : exec i s = .next t) :
    ∃ w tr', exec i (s.setOutput v tr) = .next (t.setOutput w tr') := by
  cases exec_next.1 h with
  | out => exact ⟨s.acc, tr ++ [(s.stepNo, s.acc)], rfl⟩
  | _ => exact ⟨v, tr, by simp⟩

end Sys2Proof.Machine

/-! SUPPORT. Fetch and step: what they read, and the next states and faults of a step. -/

namespace Sys2Proof.Machine

open Sys2Proof.Claims

variable {i : Instr} {s t : State}

/-- The fetched instruction depends on PC and the program area alone (rule R33). -/
theorem fetch_instr_congr (hpc : t.pc = s.pc) (hm : ∀ x, t.mem.read (progAddr x) = s.mem.read (progAddr x)) :
    t.fetch.1 = s.fetch.1 := by
  simp only [State.fetch, State.fetchByte, State.setPc, hpc, hm]
  cases decodeFirst (s.mem.read (progAddr s.pc)) <;> rfl

@[simp] theorem fetch_mem : s.fetch.2.mem = s.mem := by rw [fetch_state]
@[simp] theorem fetch_outTrace : s.fetch.2.outTrace = s.outTrace := by rw [fetch_state]
@[simp] theorem fetch_obuf : s.fetch.2.obuf = s.obuf := by rw [fetch_state]
@[simp] theorem fetch_stepNo : s.fetch.2.stepNo = s.stepNo := by rw [fetch_state]

/-- A fetch is the decoder's answer on the two bytes at PC, and PC moves by the bytes it took. -/
theorem fetch_of_decode {rest : List Byte}
    (h : decode [s.mem.read (progAddr s.pc), s.mem.read (progAddr (s.pc + 1))] = .ok (i, rest)) :
    s.fetch = (i, { s with pc := s.pc + BitVec.ofNat 8 (2 - rest.length), ir := s.mem.read (progAddr s.pc) }) := by
  simp only [decode] at h
  simp only [State.fetch, State.fetchByte, State.setPc]
  cases hd : decodeFirst (s.mem.read (progAddr s.pc)) with
  | whole j =>
    obtain ⟨rfl, rfl⟩ : j = i ∧ [s.mem.read (progAddr (s.pc + 1))] = rest := by simpa [hd] using h
    rfl
  | needsSecond f =>
    obtain ⟨rfl, rfl⟩ : f (s.mem.read (progAddr (s.pc + 1))) = i ∧ [] = rest := by simpa [hd] using h
    simp [BitVec.add_assoc]

/-- A step faults where the machine has halted, or where the fetched instruction does. -/
theorem step_fault {r : Fault} :
    step s = .fault r ↔
      s.run = .halted ∧ r = .halted ∨ s.run = .running ∧ exec s.fetch.1 s.fetch.2 = .fault r := by
  unfold step
  cases s.run with
  | halted => simp [eq_comm]
  | running => cases exec s.fetch.1 s.fetch.2 <;> simp

/-- A fetch overwrites IR (rule R18). -/
theorem fetch_setIr (v : Byte) : ({ s with ir := v } : State).fetch = s.fetch := by
  rw [State.fetch, State.fetch]
  rfl

theorem fetch_setOutput (v : Byte) (tr : List (Nat × Byte)) :
    (s.setOutput v tr).fetch = (s.fetch.1, s.fetch.2.setOutput v tr) :=
  Prod.ext (fetch_instr_congr rfl fun _ => rfl) (by simp [fetch_state]; rfl)

/-- What was output before reaches nothing but the output side of a step's next state. -/
theorem step_setOutput_next {v : Byte} {tr : List (Nat × Byte)} (h : step s = .next t) :
    ∃ w tr', step (s.setOutput v tr) = .next (t.setOutput w tr') := by
  obtain ⟨running, u, hu, rfl⟩ := step_next.1 h
  obtain ⟨w, tr', hw⟩ := exec_setOutput (v := v) (tr := tr) hu
  exact ⟨w, tr', step_next.2 ⟨running, _, by rwa [fetch_setOutput], rfl⟩⟩

theorem step_setOutput_fault {v : Byte} {tr : List (Nat × Byte)} {r : Fault} (h : step s = .fault r) :
    step (s.setOutput v tr) = .fault r := by
  rw [step_fault, fetch_setOutput]
  obtain ⟨halted, rfl⟩ | ⟨running, hr⟩ := step_fault.1 h
  · exact .inl ⟨halted, rfl⟩
  · exact .inr ⟨running, exec_fault.2 (exec_fault.1 hr)⟩

end Sys2Proof.Machine

/-! SUPPORT. The well-formed states: they hold at every launch, and every step keeps them. -/

namespace Sys2Proof.Machine

variable {i : Instr} {s t : State}

theorem traceInOrder_cons {k lo n : Nat} {v : Byte} {tr : List (Nat × Byte)} :
    traceInOrder k lo ((n, v) :: tr) = true ↔ lo ≤ n ∧ n < k ∧ traceInOrder k (n + 1) tr = true := by
  simp [traceInOrder, and_assoc]

/-- An event at step `k` joins a trace of earlier events. -/
theorem traceInOrder_snoc {k lo : Nat} {tr : List (Nat × Byte)} {v : Byte} (h : traceInOrder k lo tr = true)
    (hlo : lo ≤ k) : traceInOrder (k + 1) lo (tr ++ [(k, v)]) = true := by
  induction tr generalizing lo with
  | nil => simp [traceInOrder, hlo]
  | cons e tr ih =>
    obtain ⟨n, w⟩ := e
    obtain ⟨hn, past, later⟩ := traceInOrder_cons.1 h
    exact traceInOrder_cons.2 ⟨hn, past.trans k.lt_succ_self, ih later past⟩

/-- Past events stay past. -/
theorem traceInOrder_mono {k k' lo : Nat} {tr : List (Nat × Byte)} (h : traceInOrder k lo tr = true)
    (hk : k ≤ k') : traceInOrder k' lo tr = true := by
  induction tr generalizing lo with
  | nil => rfl
  | cons e tr ih =>
    obtain ⟨n, w⟩ := e
    obtain ⟨hn, past, later⟩ := traceInOrder_cons.1 h
    exact traceInOrder_cons.2 ⟨hn, past.trans_le hk, ih later⟩

theorem wf_iff : s.wf = true ↔
    s.mem.wf = true ∧ traceInOrder s.stepNo 0 s.outTrace = true ∧ s.obufIsLastOutput = true := by
  simp [State.wf, and_assoc]

theorem obufIsLastOutput_congr (hv : t.obuf = s.obuf) (htr : t.outTrace = s.outTrace) :
    t.obufIsLastOutput = s.obufIsLastOutput := by
  rw [State.obufIsLastOutput, State.obufIsLastOutput, hv, htr]

theorem obufIsLastOutput_output (v : Byte) : (s.output v).obufIsLastOutput = true := by
  simp [State.obufIsLastOutput]

theorem wf_launch (v : Config.ResetValues) {m : Memory} (hm : m.wf = true) : (State.launch v m).wf = true :=
  wf_iff.2 ⟨hm, rfl, rfl⟩

theorem wf_fetch (hs : s.wf = true) : s.fetch.2.wf = true := by
  rw [fetch_state]
  exact hs

theorem exec_keeps_mem_wf (hs : s.mem.wf = true) (h : exec i s = .next t) : t.mem.wf = true := by
  obtain hm | ⟨a, m, d, -, hm⟩ := exec_mem h <;> rw [hm]
  · exact hs
  · exact Memory.wf_write hs _ _

/-- An instruction, and the step number then advanced, keep a state well formed. -/
theorem exec_keeps_wf (hs : s.wf = true) (h : exec i s = .next t) : t.endStep.wf = true := by
  obtain ⟨mem, trace, last⟩ := wf_iff.1 hs
  have mem' := exec_keeps_mem_wf mem h
  by_cases hi : i = .out
  · subst hi
    obtain rfl : s.output s.acc = t := by simpa using h
    exact wf_iff.2 ⟨mem', traceInOrder_snoc trace s.stepNo.zero_le, obufIsLastOutput_output _⟩
  · obtain ⟨hv, htr⟩ := exec_output h hi
    obtain ⟨-, -, -, -, hno⟩ := exec_inputs h
    refine wf_iff.2 ⟨mem', ?_, (obufIsLastOutput_congr hv htr).trans last⟩
    rw [endStep_outTrace, endStep_stepNo, htr, hno]
    exact traceInOrder_mono trace s.stepNo.le_succ

theorem step_keeps_wf (hs : s.wf = true) (h : step s = .next t) : t.wf = true := by
  obtain ⟨-, u, hu, rfl⟩ := step_next.1 h
  exact exec_keeps_wf (wf_fetch hs) hu

end Sys2Proof.Machine

/-! CERTIFICATES. The statements about the state: what starts it, what a step keeps, what each instruction writes
and reads of it. -/

namespace Sys2Proof.Proofs

open Sys2Proof.Machine Sys2Proof.Claims

/-- Settles O13, by what an instruction can do to memory and the output side. -/
theorem stepKeepsWellFormed : Obligations.StepKeepsWellFormed := fun _ _ hs h => step_keeps_wf hs h

/-- Settles O17, by `exec_flags`. -/
theorem onlyListedInstructionsWriteFlags : Obligations.OnlyListedInstructionsWriteFlags := by
  intro i s t h
  rw [exec_flags h]
  exact ⟨fun hw => by simp [hw], fun hw => by simp [hw]⟩

/-- Settles O18: each part replaces one flag and leaves the other three as they are. -/
theorem unreadFlagsDoNotMatter : Obligations.UnreadFlagsDoNotMatter := by
  intro i s t b h
  have cf := congrArg State.cf (exec_flags h)
  have vf := congrArg State.vf (exec_flags h)
  have nf := congrArg State.nf (exec_flags h)
  have zf := congrArg State.zf (exec_flags h)
  simp only [setFlags_cf, setFlags_vf, setFlags_nf, setFlags_zf] at cf vf nf zf
  refine ⟨fun hr => ?_, fun hr => ?_, fun hr => ?_, fun hr => ?_⟩
  · have step := exec_setFlags (c := b) h (by simp [hr]) (fun _ => rfl) (fun _ => rfl) (fun _ => rfl)
    rwa [← vf, ← nf, ← zf] at step
  · have step := exec_setFlags (v := b) h (fun _ => rfl) (by simp [hr]) (fun _ => rfl) (fun _ => rfl)
    rwa [← cf, ← nf, ← zf] at step
  · have step := exec_setFlags (n := b) h (fun _ => rfl) (fun _ => rfl) (by simp [hr]) (fun _ => rfl)
    rwa [← cf, ← vf, ← zf] at step
  · have step := exec_setFlags (z := b) h (fun _ => rfl) (fun _ => rfl) (fun _ => rfl) (by simp [hr])
    rwa [← cf, ← vf, ← nf] at step

/-- Settles O19, from the frame of the registers. -/
theorem onlyDestinationRegisterChanges : Obligations.OnlyDestinationRegisterChanges := by
  intro i s t a h hd
  rw [regOf_eq_reg, regOf_eq_reg, exec_reg h hd]

/-- Settles O20: an instruction that is no branch carries PC along, and a branch jumps or falls through. -/
theorem onlyBranchesWritePc : Obligations.OnlyBranchesWritePc :=
  fun _ _ _ h => ⟨fun hb _ => exec_setPc h hb, fun _ hb => exec_branch_pc h hb⟩

/-- Settles O21, from the frames of the inputs, of the output side and of the run state. -/
theorem onlyOutAndHaltTouchTheSystem : Obligations.OnlyOutAndHaltTouchTheSystem := by
  intro i s t h
  obtain ⟨ibuf, ibufFlgIn, obufFlgIn, ir, stepNo⟩ := exec_inputs h
  exact ⟨ibuf, ibufFlgIn, obufFlgIn, ir, stepNo, exec_output h, exec_run h⟩

/-- Settles O22, by the independence of fetch and of every instruction from the output side. -/
theorem obufIsNeverRead : Obligations.ObufIsNeverRead :=
  fun _ _ _ => ⟨fun _ h => step_setOutput_next h, fun _ h => step_setOutput_fault h⟩

/-- Settles O1: the fetch agrees with the decoder, and a running state's step is its fetched instruction. -/
theorem stepRunsDecodedInstruction : Obligations.StepRunsDecodedInstruction := by
  intro s i rest running hd
  rw [step, fetch_of_decode hd, running]
  rfl

/-- Settles O11: each field of a launch is given by the launch. -/
theorem runStartsAtZero : Obligations.RunStartsAtZero :=
  ⟨fun _ _ => ⟨rfl, rfl, rfl, rfl, rfl, rfl, rfl, rfl, rfl, rfl, rfl⟩, rfl⟩

/-- Settles O12: reset is a launch with the empty memory. -/
theorem resetIsWellFormed : Obligations.ResetIsWellFormed :=
  ⟨wf_launch _ Memory.wf_nil, rfl, fun v _ hm => wf_launch v hm⟩

/-- Settles O23: a step reads its state through the fetch, which overwrites IR. -/
theorem irIsNotVisible : Obligations.IrIsNotVisible := by
  intro s v
  rw [step, step, fetch_setIr]

end Sys2Proof.Proofs

/-! SUPPORT. Memory by its reads, and the fetch after a write or a placing: what the statements about memory rest on. -/

namespace Sys2Proof.Machine

variable {s : State}

/-! ### A canonical memory is determined by its reads -/

theorem readKey_head (k : Nat) (v : Byte) (m : Memory) : Memory.readKey ((k, v) :: m) k = v := by
  simp [Memory.readKey]

theorem wfFrom_head {lo k : Nat} {v : Byte} {m : Memory} (h : Memory.wfFrom lo ((k, v) :: m) = true) :
    Memory.wfFrom k ((k, v) :: m) = true :=
  wfFrom_cons.2 ⟨le_rfl, (wfFrom_cons.1 h).2⟩

/-- A listed byte is never the unlisted one, so a memory that reads alike cannot begin above it. -/
theorem lo_le_head {lo lo' k : Nat} {v : Byte} {m n : Memory} (hm : Memory.wfFrom lo ((k, v) :: m) = true)
    (hn : Memory.wfFrom lo' n = true) (h : Memory.readKey ((k, v) :: m) k = n.readKey k) : lo' ≤ k := by
  obtain ⟨-, -, listed, -⟩ := wfFrom_cons.1 hm
  by_contra below
  rw [readKey_head, readKey_below hn (by omega)] at h
  exact listed h

/-- Equal reads below 512 make two canonical lists equal: their first keys are the first listed addresses. -/
theorem wfFrom_ext {lo lo' : Nat} {m n : Memory} (hm : Memory.wfFrom lo m = true) (hn : Memory.wfFrom lo' n = true)
    (h : ∀ a < 512, m.readKey a = n.readKey a) : m = n := by
  induction m generalizing lo lo' n with
  | nil =>
    cases n with
    | nil => rfl
    | cons e n =>
      obtain ⟨j, w⟩ := e
      obtain ⟨-, hj, -, -⟩ := wfFrom_cons.1 hn
      exact absurd (lo_le_head hn (wfFrom_nil (j + 1)) (h j hj).symm) j.lt_irrefl
  | cons e m ih =>
    obtain ⟨k, v⟩ := e
    obtain ⟨-, hk, -, hm'⟩ := wfFrom_cons.1 hm
    cases n with
    | nil =>
      exact absurd (lo_le_head hm (wfFrom_nil (k + 1)) (h k hk)) k.lt_irrefl
    | cons e n =>
      obtain ⟨j, w⟩ := e
      obtain ⟨-, hj, -, hn'⟩ := wfFrom_cons.1 hn
      obtain rfl : k = j :=
        Nat.le_antisymm (lo_le_head hn (wfFrom_head hm) (h j hj).symm) (lo_le_head hm (wfFrom_head hn) (h k hk))
      obtain rfl : v = w := by simpa [readKey_head] using h k hk
      have tails : m = n := ih hm' hn' fun a ha => by
        by_cases hak : a = k
        · rw [hak, readKey_below hm' k.lt_succ_self, readKey_below hn' k.lt_succ_self]
        · simpa [readKey_cons hm', readKey_cons hn', hak] using h a ha
      rw [tails]

theorem Memory.ext_read {m n : Memory} (hm : m.wf = true) (hn : n.wf = true) (h : ∀ x, m.read x = n.read x) :
    m = n :=
  wfFrom_ext hm hn fun a ha => by
    simpa [Memory.read, Nat.mod_eq_of_lt ha] using h (BitVec.ofNat 9 a)

/-! ### A store leaves IX, so the effective address -/

@[simp] theorem store_ea (a : Addr) (v : Byte) (m : MemMode) (d : Byte) : (s.store a v).ea m d = s.ea m d := rfl

/-! ### What the next fetch reads -/

/-- Every two bytes decode (rule R55). -/
theorem decode_pair (b d : Byte) : ∃ i rest, decode [b, d] = .ok (i, rest) := by
  rw [decode]
  cases decodeFirst b with
  | whole i => exact ⟨i, [d], rfl⟩
  | needsSecond f => exact ⟨f d, [], rfl⟩

/-- A fetch gives the instruction that the two bytes at PC decode to. -/
theorem decode_fetch (s : State) :
    ∃ rest, decode [s.mem.read (progAddr s.pc), s.mem.read (progAddr (s.pc + 1))] = .ok (s.fetch.1, rest) := by
  obtain ⟨i, rest, hd⟩ := decode_pair (s.mem.read (progAddr s.pc)) (s.mem.read (progAddr (s.pc + 1)))
  exact ⟨rest, by rw [hd, fetch_of_decode hd]⟩

theorem placeAtPc_pc (s : State) (b d : Byte) : (s.placeAtPc b d).pc = s.pc := rfl

theorem placeAtPc_run (s : State) (b d : Byte) : (s.placeAtPc b d).run = .running := rfl

/-- The second byte's offset is another one than the first's, also where PC wraps. -/
theorem placeAtPc_read_first (hs : s.mem.wf = true) (b d : Byte) :
    (s.placeAtPc b d).mem.read (progAddr s.pc) = b := by
  have other : progAddr s.pc ≠ progAddr (s.pc + 1) := by
    rw [Ne, progAddr_inj]
    bv_omega
  rw [State.placeAtPc, Memory.read_write_other (Memory.wf_write hs _ _) other, Memory.read_write_same hs]

theorem placeAtPc_read_second (hs : s.mem.wf = true) (b d : Byte) :
    (s.placeAtPc b d).mem.read (progAddr (s.pc + 1)) = d :=
  Memory.read_write_same (Memory.wf_write hs _ _) _ _

theorem decodeTableWord_eq_some {nbits w : Nat} {i : Instr} :
    decodeTableWord nbits w = some i ↔
      ∃ rest, decode [(tableBytes nbits w).1, (tableBytes nbits w).2] = .ok (i, rest) := by
  rw [decodeTableWord]
  cases decode [(tableBytes nbits w).1, (tableBytes nbits w).2] <;> simp [Prod.ext_iff]

end Sys2Proof.Machine

/-! CERTIFICATES. The statements about memory: its form, what writes it, and what loads and fetches read of it. -/

namespace Sys2Proof.Proofs

open Sys2Proof.Machine Sys2Proof.Claims

/-- Settles O15, by induction on the first memory: the first entries agree, and then the rests read alike. -/
theorem equalReadsEqualMemory : Obligations.EqualReadsEqualMemory := fun _ _ hm hn h => Memory.ext_read hm hn h

/-- Settles O16: memory is unchanged, or the instruction is ST and one byte is written. -/
theorem onlyStoreWritesMemory : Obligations.OnlyStoreWritesMemory := by
  intro i s t hs h
  constructor
  · rintro a m d rfl x
    rw [execStMem_next.1 h, store_mem, Memory.read_write hs, regOf_eq_reg]
  · intro noStore x
    obtain hm | ⟨a, m, d, hi, -⟩ := exec_mem h
    · rw [hm]
    · exact absurd hi (noStore a m d)

/-- Settles O9: the fetched instruction, and with it PC and IR, come from PC and the program area. -/
theorem fetchReadsProgramAreaOnly : Obligations.FetchReadsProgramAreaOnly := by
  intro s t hpc hmem
  have area : ∀ x, t.mem.read (progAddr x) = s.mem.read (progAddr x) := fun x =>
    hmem _ (by rw [progAddr_toNat]; exact x.isLt)
  exact ⟨fetch_instr_congr hpc area, by simp [fetch_state, hpc, area], by simp [fetch_state, hpc, area]⟩

/-- Settles O10: the two bytes placed are the ones the fetch decodes. -/
theorem placedWordIsFetched : Obligations.PlacedWordIsFetched := by
  intro s nbits w i hs h
  obtain ⟨rest, hd⟩ := decodeTableWord_eq_some.1 h
  refine ⟨?_, placeAtPc_run _ _ _⟩
  rw [State.withFetchWord, fetch_of_decode]
  rw [placeAtPc_pc, placeAtPc_read_first hs, placeAtPc_read_second hs, hd]

/-- Settles O41: ST leaves IX, so LD takes the same effective address. -/
theorem loadReadsWhatWasStored : Obligations.LoadReadsWhatWasStored := by
  intro a b m d s t hs h
  obtain rfl := execStMem_next.1 h
  refine ⟨_, exec_ldInstr _ b (.mem m d), ?_⟩
  rw [regOf_eq_reg, regOf_eq_reg, reg_setReg, if_pos rfl, val2_mem, store_ea, store_mem, Memory.read_write_same hs]

/-- Settles O42: the fetch decodes the two bytes at PC, the first of them the one just stored. -/
theorem storeIsSeenByNextFetch : Obligations.StoreIsSeenByNextFetch := by
  intro a m d s t hs hea h
  obtain rfl := execStMem_next.1 h
  have first : (s.store (s.ea m d) (s.reg a)).mem.read (progAddr s.pc) = regOf s a := by
    rw [hea, store_mem, Memory.read_write_same hs, regOf_eq_reg]
  constructor
  · rw [fetch_state]
    exact first
  · rw [← first]
    exact decode_fetch _

end Sys2Proof.Proofs

/-! SUPPORT. The first byte of a type 3 or type 4 instruction by its fields, and the encoder and the decoder by
family. -/

namespace Sys2Proof

open Sys2Proof.Machine Sys2Proof.Claims

/-! ### The fields of a first byte -/

/-- The first byte with operation code `op`, field A and field B (rule R54). -/
def codeByte (op : BitVec 4) (a : Reg) (x : BitVec 3) : Byte := op ++ encodeReg a ++ x

@[simp] theorem decodeReg_bit (a : Reg) : decodeReg (decide (a = .ix)) = a := by cases a <;> rfl

section Bits

variable (op : BitVec 4) (a : Reg) (x : BitVec 3)

/-- The bits are the fields', the operation code's first. -/
@[simp] theorem codeByte_bits :
    (codeByte op a x)[7] = op[3] ∧ (codeByte op a x)[6] = op[2] ∧ (codeByte op a x)[5] = op[1] ∧
    (codeByte op a x)[4] = op[0] ∧ (codeByte op a x)[3] = decide (a = .ix) ∧ (codeByte op a x)[2] = x[2] ∧
    (codeByte op a x)[1] = x[1] ∧ (codeByte op a x)[0] = x[0] := by
  cases a <;> (revert op x; decide)

@[simp] theorem codeByte_low2 : (codeByte op a x).extractLsb' 0 2 = x.extractLsb' 0 2 := by
  cases a <;> (revert op x; decide)

end Bits

theorem exists_codeByte (b : Byte) : ∃ op a x, b = codeByte op a x :=
  ⟨b.extractLsb' 4 4, regField b, b.extractLsb' 0 3, by revert b; decide⟩

/-! ### Codes of the families -/

/-- The operation code of an arithmetic or logic instruction (rule R61). -/
def aluCode : AluOp → BitVec 4
  | .sbc => 0x8
  | .adc => 0x9
  | .sub => 0xA
  | .add => 0xB
  | .eor => 0xC
  | .orr => 0xD
  | .andd => 0xE
  | .cmp => 0xF

/-- Fields r and sm of a shift (rule R58). -/
def shiftCode : ShiftOp → BitVec 3
  | .sra => 0
  | .sla => 1
  | .srl => 2
  | .sll => 3
  | .rra => 4
  | .rla => 5
  | .rrl => 6
  | .rll => 7

/-- The bytes of a type 4 instruction with any of its operand forms (rule R54). -/
def encodeType4 (op : BitVec 4) (a : Reg) : Operand2 → List Byte
  | .reg b => [codeByte op a (0b00#2 ++ encodeReg b)]
  | .imm d => [codeByte op a 0b010, d]
  | .mem m d => [codeByte op a (encodeMode m), d]

section Encode

variable (a : Reg) (o : Operand2)

theorem encode_branchInstr (cc : Cond) (d : Byte) : encode (branchInstr cc d) = [branchByte cc, d] := by
  cases cc <;> rfl

theorem encode_shiftInstr (op : ShiftOp) : encode (shiftInstr op a) = [codeByte 0x4 a (shiftCode op)] := by
  cases op <;> rfl

theorem encode_ldInstr : encode (ldInstr a o) = encodeType4 0x6 a o := by cases o <;> rfl

theorem encode_stIllegal (x : BitVec 2) : encode (.stIllegal a x) = [codeByte 0x7 a (0#1 ++ x)] := rfl

theorem encode_stMem (m : MemMode) (d : Byte) : encode (.stMem a m d) = [codeByte 0x7 a (encodeMode m), d] := rfl

theorem encode_aluInstr (op : AluOp) : encode (aluInstr op a o) = encodeType4 (aluCode op) a o := by
  cases op <;> cases o <;> rfl

end Encode

section Decode

variable (op : BitVec 4) (a : Reg) (x : BitVec 3)

theorem decodeFirst_branchByte (cc : Cond) : decodeFirst (branchByte cc) = .needsSecond (branchInstr cc) := by
  cases cc <;> rfl

theorem decodeFirst_shift (op : ShiftOp) :
    decodeFirst (codeByte 0x4 a (shiftCode op)) = .whole (shiftInstr op a) := by
  cases op <;> cases a <;> rfl

theorem decodeFirst_unused : decodeFirst (codeByte 0x5 a x) = .whole .unused5x := by simp [decodeFirst]

theorem decodeFirst_ld :
    decodeFirst (codeByte 0x6 a x) = decodeType4 (codeByte 0x6 a x) .ldReg .ldImm .ldMem := by
  simp [decodeFirst]

theorem decodeFirst_st : decodeFirst (codeByte 0x7 a x) = decodeSt (codeByte 0x7 a x) := by simp [decodeFirst]

theorem decodeFirst_alu (op : AluOp) :
    decodeFirst (codeByte (aluCode op) a x) =
      decodeType4 (codeByte (aluCode op) a x) (fun a b => aluInstr op a (.reg b)) (fun a d => aluInstr op a (.imm d))
        (fun a m d => aluInstr op a (.mem m d)) := by
  cases op <;> simp [decodeFirst, aluCode] <;> rfl

variable (reg : Reg → Reg → Instr) (imm : Reg → Byte → Instr) (mem : Reg → MemMode → Byte → Instr)

theorem decodeType4_reg (b : Reg) :
    decodeType4 (codeByte op a (0b00#2 ++ encodeReg b)) reg imm mem = .whole (reg a b) := by
  cases b <;> (simp [decodeType4, encodeReg]; rfl)

/-- Both values of the bit that rule R57 leaves open make an immediate. -/
theorem decodeType4_imm (hi : x[2] = false) (lo : x[1] = true) :
    decodeType4 (codeByte op a x) reg imm mem = .needsSecond (imm a) := by
  simp [decodeType4, hi, lo]

theorem decodeType4_mem (m : MemMode) :
    decodeType4 (codeByte op a (encodeMode m)) reg imm mem = .needsSecond (mem a m) := by
  cases m <;> simp [decodeType4, encodeMode, decodeMode]

theorem decodeSt_illegal (y : BitVec 2) :
    decodeSt (codeByte op a (0#1 ++ y)) = .whole (.stIllegal a y) := by
  have form : (0#1 ++ y : BitVec 3)[2] = false ∧ (0#1 ++ y : BitVec 3).extractLsb' 0 2 = y := by revert y; decide
  simp [decodeSt, form]

theorem decodeSt_mem (m : MemMode) :
    decodeSt (codeByte op a (encodeMode m)) = .needsSecond (.stMem a m) := by
  cases m <;> simp [decodeSt, encodeMode, decodeMode]

end Decode

/-! ### Decoding what was encoded -/

theorem decode_whole {b : Byte} {i : Instr} (h : decodeFirst b = .whole i) (rest : List Byte) :
    decode (b :: rest) = .ok (i, rest) := by
  simp [decode, h]

theorem decode_needsSecond {b : Byte} {f : Byte → Instr} (h : decodeFirst b = .needsSecond f) (d : Byte)
    (rest : List Byte) : decode (b :: d :: rest) = .ok (f d, rest) := by
  simp [decode, h]

/-- A type 4 instruction decodes from its encoding, whatever its operand form. -/
theorem decode_encodeType4 {op : BitVec 4} {mk : Reg → Operand2 → Instr}
    (hop : ∀ a x, decodeFirst (codeByte op a x) =
      decodeType4 (codeByte op a x) (fun a b => mk a (.reg b)) (fun a d => mk a (.imm d))
        (fun a m d => mk a (.mem m d)))
    (a : Reg) (o : Operand2) (rest : List Byte) : decode (encodeType4 op a o ++ rest) = .ok (mk a o, rest) := by
  cases o with
  | reg b => exact decode_whole ((hop _ _).trans (decodeType4_reg ..)) rest
  | imm d => exact decode_needsSecond ((hop _ _).trans (decodeType4_imm _ _ _ _ _ _ rfl rfl)) d rest
  | mem m d => exact decode_needsSecond ((hop _ _).trans (decodeType4_mem ..)) d rest

/-- Encoding then decoding is the identity, family by family (rule R55). -/
theorem decode_encode (i : Instr) (rest : List Byte) : decode (encode i ++ rest) = .ok (i, rest) := by
  cases i using instr_by_family with
  | branch cc d =>
    rw [encode_branchInstr]
    exact decode_needsSecond (decodeFirst_branchByte cc) d rest
  | shift op a =>
    rw [encode_shiftInstr]
    exact decode_whole (decodeFirst_shift a op) rest
  | ld a o =>
    rw [encode_ldInstr]
    exact decode_encodeType4 decodeFirst_ld a o rest
  | stIllegal a x =>
    rw [encode_stIllegal]
    exact decode_whole ((decodeFirst_st a _).trans (decodeSt_illegal _ a x)) rest
  | st a m d =>
    rw [encode_stMem]
    exact decode_needsSecond ((decodeFirst_st a _).trans (decodeSt_mem _ a m)) d rest
  | alu op a o =>
    rw [encode_aluInstr]
    exact decode_encodeType4 (fun a x => decodeFirst_alu a x op) a o rest
  | _ => rfl

/-! ### Don't-care bits -/

theorem sameCode_self (b : Byte) : SameCode b b := by simp [SameCode]

theorem sameCode_getElem {b e : Byte} (h : SameCode b e) {k : Nat} (hk : k < 8)
    (fixed : (dontCare b)[k] = false) : e[k] = b[k] := by
  have bit : ((b ^^^ e) &&& ~~~dontCare b)[k] = (0#8)[k] := by rw [show _ = _ from h]; rfl
  simp only [BitVec.getElem_and, BitVec.getElem_xor, BitVec.getElem_not, fixed, BitVec.getElem_zero] at bit
  exact (by simpa using bit : b[k] = e[k]).symm

/-- No bit of the operation code is don't-care. -/
theorem dontCare_op (b : Byte) :
    (dontCare b)[4] = false ∧ (dontCare b)[5] = false ∧ (dontCare b)[6] = false ∧ (dontCare b)[7] = false := by
  revert b; decide

theorem sameCode_op {op op' : BitVec 4} {a a' : Reg} {x x' : BitVec 3}
    (h : SameCode (codeByte op a x) (codeByte op' a' x')) : op' = op := by
  obtain ⟨fixed4, fixed5, fixed6, fixed7⟩ := dontCare_op (codeByte op a x)
  have bit0 := sameCode_getElem h _ fixed4
  have bit1 := sameCode_getElem h _ fixed5
  have bit2 := sameCode_getElem h _ fixed6
  have bit3 := sameCode_getElem h _ fixed7
  simp only [codeByte_bits] at bit0 bit1 bit2 bit3
  ext k hk
  interval_cases k <;> assumption

/-- Besides equal bytes the same code have those of the unused code, those of a type 1 instruction, and the two of an
immediate (rules R51, R57 and R63). -/
theorem sameCode_fields : ∀ (op : BitVec 4) (a a' : Reg) (x x' : BitVec 3),
    SameCode (codeByte op a x) (codeByte op a' x') →
      (a' = a ∧ x' = x) ∨ op = 0x5 ∨ (a' = a ∧ (op = 0x0 ∨ op = 0x1 ∨ op = 0x2)) ∨
        a' = a ∧ (op = 0x6 ∨ 8 ≤ op) ∧ (x[2] = false ∧ x[1] = true) ∧ x'[2] = false ∧ x'[1] = true := by
  unfold SameCode
  rintro op (_ | _) (_ | _) <;> (revert op; decide)

theorem exists_aluCode : ∀ op : BitVec 4, 8 ≤ op →
    ∃ alu ∈ [AluOp.sbc, .adc, .sub, .add, .eor, .orr, .andd, .cmp], aluCode alu = op := by
  decide

/-- First bytes with the same code decode alike (rule R62). -/
theorem decodeFirst_congr {b e : Byte} (h : SameCode b e) : decodeFirst b = decodeFirst e := by
  obtain ⟨op, a, x, rfl⟩ := exists_codeByte b
  obtain ⟨op', a', x', rfl⟩ := exists_codeByte e
  obtain rfl := sameCode_op h
  obtain ⟨rfl, rfl⟩ | rfl | ⟨rfl, type1⟩ | ⟨rfl, rfl | arith, ⟨hi, lo⟩, hi', lo'⟩ :=
    sameCode_fields _ _ _ _ _ h
  · rfl
  · rw [decodeFirst_unused, decodeFirst_unused]
  · obtain rfl | rfl | rfl := type1 <;> simp [decodeFirst]
  · rw [decodeFirst_ld, decodeFirst_ld, decodeType4_imm _ _ _ _ _ _ hi lo, decodeType4_imm _ _ _ _ _ _ hi' lo']
  · obtain ⟨alu, -, rfl⟩ := exists_aluCode _ arith
    rw [decodeFirst_alu, decodeFirst_alu, decodeType4_imm _ _ _ _ _ _ hi lo, decodeType4_imm _ _ _ _ _ _ hi' lo']

/-! ### Every byte is the first byte of an encoding, but for don't-care bits -/

/-- The operation codes: type 1 with the unused code, the branches, the shifts, ST, and the rest of type 4
(rule R55). -/
theorem op_cases : ∀ op : BitVec 4,
    (op < 0x3 ∨ op = 0x5) ∨ op = 0x3 ∨ op = 0x4 ∨ op = 0x7 ∨ op = 0x6 ∨ 8 ≤ op := by
  decide

/-- Field B: a register, an immediate, or memory (rule R57). -/
theorem form_cases (x : BitVec 3) :
    (∃ b, x = 0b00#2 ++ encodeReg b) ∨ (x = 0b010 ∨ x = 0b011) ∨ ∃ m, x = encodeMode m := by
  have field : (x = 0b000 ∨ x = 0b001) ∨ (x = 0b010 ∨ x = 0b011) ∨
      x = 0b100 ∨ x = 0b101 ∨ x = 0b110 ∨ x = 0b111 := by
    revert x; decide
  obtain (h | h) | h | h | h | h | h := field
  · exact .inl ⟨.acc, h⟩
  · exact .inl ⟨.ix, h⟩
  · exact .inr (.inl h)
  · exact .inr (.inr ⟨.absProg, h⟩)
  · exact .inr (.inr ⟨.absData, h⟩)
  · exact .inr (.inr ⟨.idxProg, h⟩)
  · exact .inr (.inr ⟨.idxData, h⟩)

/-- Field B of ST: illegal, or memory (rule R64). -/
theorem st_form_cases (x : BitVec 3) : (∃ y : BitVec 2, x = 0#1 ++ y) ∨ ∃ m, x = encodeMode m := by
  obtain ⟨b, rfl⟩ | (rfl | rfl) | memory := form_cases x
  · exact .inl ⟨0#1 ++ encodeReg b, by cases b <;> rfl⟩
  · exact .inl ⟨0b10, rfl⟩
  · exact .inl ⟨0b11, rfl⟩
  · exact .inr memory

/-- The instructions of type 1 and the unused code, with their bytes (rules R51, R62 and R63). -/
def type1Codes : List (Instr × Byte) :=
  [(.nop, 0x00), (.hlt, 0x0F), (.out, 0x10), (.inp, 0x1F), (.rcf, 0x20), (.scf, 0x2F), (.unused5x, 0x50)]

theorem encode_type1 : ∀ row ∈ type1Codes, encode row.1 = [row.2] := by decide

theorem exists_type1 : ∀ (op : BitVec 4) (a : Reg) (x : BitVec 3), op < 0x3 ∨ op = 0x5 →
    ∃ row ∈ type1Codes, SameCode (codeByte op a x) row.2 := by
  unfold SameCode
  rintro op (_ | _) <;> (revert op; decide)

theorem exists_branchByte : ∀ (a : Reg) (x : BitVec 3),
    ∃ cc ∈ [Cond.always, .vf, .nz, .z, .zp, .n, .p, .zn, .ni, .no, .nc, .c, .ge, .lt, .gt, .le],
      branchByte cc = codeByte 0x3 a x := by
  rintro (_ | _) <;> decide

theorem exists_shiftCode : ∀ x : BitVec 3,
    ∃ op ∈ [ShiftOp.sra, .sla, .srl, .sll, .rra, .rla, .rrl, .rll], shiftCode op = x := by
  decide

/-- The assembler's filling of an immediate (rule R62). -/
theorem sameCode_imm : ∀ (op : BitVec 4) (a : Reg), op = 0x6 ∨ 8 ≤ op →
    SameCode (codeByte op a 0b011) (codeByte op a 0b010) := by
  unfold SameCode
  rintro op (_ | _) <;> (revert op; decide)

theorem exists_encodeType4 {op : BitVec 4} (hop : op = 0x6 ∨ 8 ≤ op) (a : Reg) (x : BitVec 3) (d : Byte) :
    ∃ o rest e, encodeType4 op a o ++ rest = [e, d] ∧ SameCode (codeByte op a x) e := by
  obtain ⟨b, rfl⟩ | (rfl | rfl) | ⟨m, rfl⟩ := form_cases x
  · exact ⟨.reg b, [d], _, rfl, sameCode_self _⟩
  · exact ⟨.imm d, [], _, rfl, sameCode_self _⟩
  · exact ⟨.imm d, [], _, rfl, sameCode_imm op a hop⟩
  · exact ⟨.mem m d, [], _, rfl, sameCode_self _⟩

/-- Every two bytes are an encoding, with the second byte left over where it takes one, but for don't-care bits. -/
theorem exists_encode (b d : Byte) : ∃ i rest e, encode i ++ rest = [e, d] ∧ SameCode b e := by
  obtain ⟨op, a, x, rfl⟩ := exists_codeByte b
  obtain type1 | rfl | rfl | rfl | type4 := op_cases op
  · obtain ⟨row, hrow, same⟩ := exists_type1 op a x type1
    exact ⟨row.1, [d], row.2, by rw [encode_type1 row hrow]; rfl, same⟩
  · obtain ⟨cc, -, hcc⟩ := exists_branchByte a x
    exact ⟨branchInstr cc d, [], _, by rw [encode_branchInstr, hcc]; rfl, sameCode_self _⟩
  · obtain ⟨op, -, rfl⟩ := exists_shiftCode x
    exact ⟨shiftInstr op a, [d], _, by rw [encode_shiftInstr]; rfl, sameCode_self _⟩
  · obtain ⟨y, rfl⟩ | ⟨m, rfl⟩ := st_form_cases x
    · exact ⟨.stIllegal a y, [d], _, rfl, sameCode_self _⟩
    · exact ⟨.stMem a m d, [], _, rfl, sameCode_self _⟩
  · obtain ⟨o, rest, e, he, same⟩ := exists_encodeType4 type4 a x d
    obtain rfl | arith := type4
    · exact ⟨ldInstr a o, rest, e, by rw [encode_ldInstr, he], same⟩
    · obtain ⟨alu, -, rfl⟩ := exists_aluCode op arith
      exact ⟨aluInstr alu a o, rest, e, by rw [encode_aluInstr, he], same⟩

theorem decode_congr {b e : Byte} (h : SameCode b e) (rest : List Byte) :
    decode (b :: rest) = decode (e :: rest) := by
  rw [decode, decode, decodeFirst_congr h]

/-- Two bytes decode to an instruction and what is left over, whose bytes they are but for don't-care bits. -/
theorem encode_decode (b d : Byte) :
    ∃ i rest e, decode [b, d] = .ok (i, rest) ∧ encode i ++ rest = [e, d] ∧ SameCode b e := by
  obtain ⟨i, rest, e, he, same⟩ := exists_encode b d
  exact ⟨i, rest, e, by rw [decode_congr same, ← he, decode_encode], he, same⟩

end Sys2Proof

namespace Sys2Proof.Proofs

open Sys2Proof.Machine Sys2Proof.Claims

/-- Settles O2, by the families of instructions. -/
theorem decodeEncodeRoundTrip : Obligations.DecodeEncodeRoundTrip := decode_encode

/-- Settles O3: the bytes have the code of some encoding, which decodes to what it encodes. -/
theorem encodeDecodeRestoresBytes : Obligations.EncodeDecodeRestoresBytes := encode_decode

/-- Settles O4, by the don't-care bits of each operation code. -/
theorem dontCareBitsDecodeAlike : Obligations.DontCareBitsDecodeAlike := fun _ _ d h => decode_congr h [d]

end Sys2Proof.Proofs

/-! SUPPORT. The illegal ST: its bytes, and the steps that meet it; and the left shifts as numbers. -/

namespace Sys2Proof.Machine

open Sys2Proof.Claims

variable {s : State}

/-! ### The illegal ST -/

theorem illegalStByte_toNat (a : Reg) (x : BitVec 2) :
    (illegalStByte a x).toNat = 0x70 + (if a = .acc then 0 else 8) + x.toNat := by
  cases a <;> (revert x; decide)

/-- The eight bytes of rule R64. -/
theorem illegalByte_iff {b : Byte} : IllegalByte b ↔ ∃ a x, b = illegalStByte a x := by
  constructor
  · intro h
    refine ⟨regField b, b.extractLsb' 0 2, ?_⟩
    revert h b
    unfold IllegalByte
    decide
  · rintro ⟨a, x, rfl⟩
    have := x.isLt
    rw [IllegalByte, illegalStByte_toNat]
    split <;> omega

/-- No bit of an illegal byte is don't-care. -/
theorem eq_illegalStByte_of_sameCode {b : Byte} {a : Reg} {x : BitVec 2} (h : SameCode b (illegalStByte a x)) :
    b = illegalStByte a x := by
  revert b x
  unfold SameCode
  cases a <;> decide

/-- Two bytes decode to an illegal ST exactly where the first is its byte. -/
theorem decode_stIllegal_iff {b d : Byte} {a : Reg} {x : BitVec 2} :
    (∃ rest, decode [b, d] = .ok (.stIllegal a x, rest)) ↔ b = illegalStByte a x := by
  constructor
  · rintro ⟨rest, h⟩
    obtain ⟨i, rest', e, hd, he, same⟩ := encode_decode b d
    obtain ⟨rfl, rfl⟩ : Instr.stIllegal a x = i ∧ rest = rest' := by simpa [h] using hd
    obtain ⟨rfl, -⟩ : illegalStByte a x = e ∧ rest = [d] := by simpa [encode] using he
    exact eq_illegalStByte_of_sameCode same
  · rintro rfl
    exact ⟨[d], decode_encode (.stIllegal a x) [d]⟩

/-- The fetch gives an illegal ST exactly where its byte stands at PC. -/
theorem fetch_stIllegal_iff {a : Reg} {x : BitVec 2} :
    s.fetch.1 = .stIllegal a x ↔ byteAtPc s = illegalStByte a x := by
  obtain ⟨rest, hd⟩ := decode_fetch s
  rw [byteAtPc, ← decode_stIllegal_iff (d := s.mem.read (progAddr (s.pc + 1))), hd]
  simp

/-- Every instruction but the illegal ST has a next state in every state (rule R150). -/
theorem exec_next_of_legal {i : Instr} (h : ∀ a x, i ≠ .stIllegal a x) : ∃ t, exec i s = .next t := by
  cases i using instr_by_family with
  | stIllegal a x => exact absurd rfl (h a x)
  | _ => simp

theorem step_illegal_iff {b : Byte} :
    step s = .fault (.illegalEncoding b) ↔ s.run = .running ∧ byteAtPc s = b ∧ IllegalByte b := by
  simp only [step_fault, exec_fault, fetch_stIllegal_iff, illegalByte_iff]
  constructor
  · rintro (⟨-, h⟩ | ⟨running, a, x, here, h⟩)
    · cases h
    · obtain rfl : b = illegalStByte a x := by simpa using h
      exact ⟨running, here, a, x, rfl⟩
  · rintro ⟨running, rfl, a, x, h⟩
    exact .inr ⟨running, a, x, h, by rw [h]⟩

theorem step_next_of_legal (running : s.run = .running) (h : ¬ IllegalByte (byteAtPc s)) :
    ∃ t, step s = .next t := by
  have legal : ∀ a x, s.fetch.1 ≠ .stIllegal a x := fun a x hf =>
    h (illegalByte_iff.2 ⟨a, x, fetch_stIllegal_iff.1 hf⟩)
  obtain ⟨u, hu⟩ := exec_next_of_legal (s := s.fetch.2) legal
  exact ⟨_, step_next.2 ⟨running, u, hu, rfl⟩⟩

/-! ### A left shift as numbers -/

/-- The bit that leaves counts 256, the one that enters counts 1 (rules R113, R115, R117 and R119). -/
theorem leftOut_toNat (v : Byte) (low vf : Bool) :
    256 * bit (leftOut v low vf).c + (leftOut v low vf).r.toNat = 2 * v.toNat + bit low := by
  simp only [leftOut]
  cases low <;> (revert v; decide)

/-- The bit that leaves the low byte enters the high byte (rule R71). -/
theorem leftOut_pair (hi lo : Byte) (hiVf loVf : Bool) :
    65536 * bit (leftOut hi (leftOut lo false loVf).c hiVf).c +
        (256 * (leftOut hi (leftOut lo false loVf).c hiVf).r.toNat + (leftOut lo false loVf).r.toNat) =
      2 * (256 * hi.toNat + lo.toNat) := by
  have low := leftOut_toNat lo false loVf
  have high := leftOut_toNat hi (leftOut lo false loVf).c hiVf
  rw [show bit false = 0 from rfl] at low
  omega

end Sys2Proof.Machine

namespace Sys2Proof.Proofs

open Sys2Proof.Machine Sys2Proof.Claims

/-- Settles O6: every byte but the illegal ones has an instruction with a next state, and a safe state's byte is
none of those. -/
theorem legalByteSteps : Obligations.LegalByteSteps := by
  refine ⟨fun s running legal => step_next_of_legal running legal, fun s running safe => ?_⟩
  exact step_next_of_legal running fun illegal => safe _ (step_illegal_iff.2 ⟨running, rfl, illegal⟩)

/-- Settles O7: the illegal ST is the one instruction that faults, and the fetch gives it for its own byte alone. -/
theorem illegalEncodingExactly : Obligations.IllegalEncodingExactly := fun _ _ => step_illegal_iff

/-- Settles O8, by the number of the byte in the fault. -/
theorem illegalStoreStops : Obligations.IllegalStoreStops :=
  fun a x s => ⟨illegalStByte a x, exec_stIllegal s a x, illegalStByte_toNat a x⟩

/-- Settles O37: SLL gives ACC's top bit to CF, and RLA takes it in below IX. -/
theorem sllThenRlaShiftsSixteenBits : Obligations.SllThenRlaShiftsSixteenBits := by
  intro s t u hsll hrla
  obtain rfl := Host.Outcome.next.inj ((exec_shiftInstr s .sll .acc).symm.trans hsll)
  obtain rfl := Host.Outcome.next.inj ((exec_shiftInstr _ .rla .ix).symm.trans hrla)
  exact leftOut_pair s.ix s.acc (shiftOverflow s.ix) false

end Sys2Proof.Proofs

/-! SUPPORT. The assembler: what a mnemonic stands for, and how each family is written. -/

namespace Sys2Proof.Asm

open Sys2Proof.Machine Sys2Proof.Claims

/-! ### Every mnemonic stands for instructions of the instruction set -/

/-- An instruction that can be written: neither an illegal ST nor the unused code (rules R63 and R64). -/
structure Writable (i : Instr) : Prop where
  wellFormed : WellFormed i = true
  used : i ≠ .unused5x

/-- Every instruction of the shape can be written. -/
def Shape.Writable : Shape → Prop
  | .plain i => Asm.Writable i
  | .branch f => ∀ d, Asm.Writable (f d)
  | .shift f => ∀ a, Asm.Writable (f a)
  | .general reg imm mem =>
    (∀ a b, Asm.Writable (reg a b)) ∧ (∀ a d, Asm.Writable (imm a d)) ∧ ∀ a m d, Asm.Writable (mem a m d)
  | .store mem => ∀ a m d, Asm.Writable (mem a m d)

theorem mnemonics_writable : ∀ row ∈ mnemonics, row.2.Writable := by
  simp only [mnemonics, plainMnemonics, branchMnemonics, shiftMnemonics, twoOperandMnemonics, List.forall_mem_append,
    List.forall_mem_cons, List.not_mem_nil, IsEmpty.forall_iff, implies_true, and_true, Shape.Writable]
  and_intros <;> intros <;> exact ⟨rfl, nofun⟩

theorem writable_of_value {env : Env} {e : List Term} {f : Byte → Instr} {i : Instr} (hf : ∀ d, Writable (f d))
    (h : ((value env e).bind fun d => some (f d)) = some i) : Writable i := by
  obtain ⟨d, -, hd⟩ := Option.bind_eq_some_iff.1 h
  exact Option.some.inj hd ▸ hf d

/-- What a mnemonic with operands assembles to is an instruction of its shape. -/
theorem toInstr_writable {env : Env} {mn : Text} {ops : List Operand} {i : Instr} (h : toInstr env mn ops = some i) :
    Writable i := by
  unfold toInstr at h
  cases hs : shapeOf mn with
  | none => simp [hs] at h
  | some sh =>
    have writable : sh.Writable := mnemonics_writable _ (shapeOf_mem hs)
    simp only [hs, Option.bind_eq_bind, Option.bind_some, Option.pure_def] at h
    split at h
    next => exact Option.some.inj h ▸ writable
    next => exact writable_of_value writable h
    next => exact Option.some.inj h ▸ writable _
    next => exact Option.some.inj h ▸ writable.1 _ _
    next => exact writable_of_value (writable.2.1 _) h
    next => exact writable_of_value (writable.2.2 _ _) h
    next => exact writable_of_value (writable _ _) h
    next => cases h

/-! ### Every family has its mnemonic and operands -/

/-- The mnemonic of a branch (rule R59). -/
def branchName : Cond → Text
  | .always => "BA".toList
  | .vf => "BVF".toList
  | .nz => "BNZ".toList
  | .z => "BZ".toList
  | .zp => "BZP".toList
  | .n => "BN".toList
  | .p => "BP".toList
  | .zn => "BZN".toList
  | .ni => "BNI".toList
  | .no => "BNO".toList
  | .nc => "BNC".toList
  | .c => "BC".toList
  | .ge => "BGE".toList
  | .lt => "BLT".toList
  | .gt => "BGT".toList
  | .le => "BLE".toList

/-- The mnemonic of a shift or rotate (rule R58). -/
def shiftName : ShiftOp → Text
  | .sra => "SRA".toList
  | .sla => "SLA".toList
  | .srl => "SRL".toList
  | .sll => "SLL".toList
  | .rra => "RRA".toList
  | .rla => "RLA".toList
  | .rrl => "RRL".toList
  | .rll => "RLL".toList

/-- The mnemonic of an arithmetic or logic instruction (rule R61). -/
def aluName : AluOp → Text
  | .sbc => "SBC".toList
  | .adc => "ADC".toList
  | .sub => "SUB".toList
  | .add => "ADD".toList
  | .eor => "EOR".toList
  | .orr => "OR".toList
  | .andd => "AND".toList
  | .cmp => "CMP".toList

/-- The second operand as it is written, its value as a number (rule R68). -/
def writtenOperand : Operand2 → Operand
  | .reg b => .reg b
  | .imm d => .imm [.num d.toNat]
  | .mem m d => .mem m [.num d.toNat]

section Written

variable (env : Env) (a : Reg) (o : Operand2)

theorem shapeOf_branchName (cc : Cond) : shapeOf (branchName cc) = some (.branch (branchInstr cc)) := by
  cases cc <;> rfl

theorem shapeOf_shiftName (op : ShiftOp) : shapeOf (shiftName op) = some (.shift (shiftInstr op)) := by
  cases op <;> rfl

theorem shapeOf_aluName (op : AluOp) : shapeOf (aluName op) =
    some (.general (fun a b => aluInstr op a (.reg b)) (fun a d => aluInstr op a (.imm d))
      (fun a m d => aluInstr op a (.mem m d))) := by
  cases op <;> rfl

/-- A mnemonic that takes a general second operand assembles with each of its forms. -/
theorem toInstr_general {mn : Text} {mk : Reg → Operand2 → Instr}
    (h : shapeOf mn = some (.general (fun a b => mk a (.reg b)) (fun a d => mk a (.imm d))
      (fun a m d => mk a (.mem m d)))) :
    toInstr env mn [.reg a, writtenOperand o] = some (mk a o) := by
  cases o <;> simp [toInstr, h, writtenOperand]

theorem toInstr_store {mn : Text} {mem : Reg → MemMode → Byte → Instr} (m : MemMode) (d : Byte)
    (h : shapeOf mn = some (.store mem)) : toInstr env mn [.reg a, writtenOperand (.mem m d)] = some (mem a m d) := by
  simp [toInstr, h, writtenOperand]

/-- Every instruction that can be written is written by its mnemonic and its operands. -/
theorem exists_written {i : Instr} (h : Writable i) : ∃ mn ops, toInstr env mn ops = some i := by
  cases i using instr_by_family with
  | nop => exact ⟨"NOP".toList, [], rfl⟩
  | hlt => exact ⟨"HLT".toList, [], rfl⟩
  | out => exact ⟨"OUT".toList, [], rfl⟩
  | inp => exact ⟨"IN".toList, [], rfl⟩
  | rcf => exact ⟨"RCF".toList, [], rfl⟩
  | scf => exact ⟨"SCF".toList, [], rfl⟩
  | unused5x => exact absurd rfl h.used
  | branch cc d => exact ⟨branchName cc, [.imm [.num d.toNat]], by simp [toInstr, shapeOf_branchName]⟩
  | shift op a => exact ⟨shiftName op, [.reg a], by simp [toInstr, shapeOf_shiftName]⟩
  | ld a o => exact ⟨"LD".toList, [.reg a, writtenOperand o], toInstr_general env a o rfl⟩
  | stIllegal a x => exact absurd h.wellFormed Bool.false_ne_true
  | st a m d => exact ⟨"ST".toList, [.reg a, writtenOperand (.mem m d)], toInstr_store env a m d rfl⟩
  | alu op a o => exact ⟨aluName op, [.reg a, writtenOperand o], toInstr_general env a o (shapeOf_aluName op)⟩

end Written


/-! ### Numbers (rule R67) -/

theorem hexDigit_isWordChar : ∀ n < 16, isWordChar (hexDigit n) = true := by decide

theorem digitVal_hexDigit : ∀ n < 16, digitVal (hexDigit n) = n := by decide

theorem hexDigit_isDigit : ∀ n < 16, (hexDigit n).isDigit = decide (n < 10) := by decide

theorem hexDigit_ne_H : ∀ n < 16, hexDigit n ≠ 'H' := by decide

@[simp] theorem digits_nil (base acc : Nat) : digits base acc [] = some acc := rfl

/-- A digit counts its value, and those before it count the base as often. -/
theorem digits_hexDigit {base n : Nat} (hn : n < base) (hbase : base ≤ 16) (acc : Nat) (cs : Text) :
    digits base acc (hexDigit n :: cs) = digits base (base * acc + n) cs := by
  simp [digits, hexDigit_isWordChar n (by omega), digitVal_hexDigit n (by omega), hn]

theorem number_hex {n : Nat} (hn : n < 256) : number ('0' :: (hex2 n ++ ['H'])) = some n := by
  have hi : n / 16 % 16 < 16 := by omega
  have lo : n % 16 < 16 := by omega
  have zero : '0' = hexDigit 0 := rfl
  have value : digits 16 0 (hexDigit 0 :: hex2 n) = some n := by
    rw [hex2, digits_hexDigit (by omega) le_rfl, digits_hexDigit hi le_rfl, digits_hexDigit lo le_rfl, digits_nil]
    congr 1
    omega
  rw [← value]
  rfl

theorem number_decimal {h t u : Nat} (hh : h < 10) (ht : t < 10) (hu : u < 10) :
    number [hexDigit h, hexDigit t, hexDigit u] = some (100 * h + 10 * t + u) := by
  have decimal : some (hexDigit u) ≠ some 'H' := by simpa using hexDigit_ne_H u (by omega)
  have first : (hexDigit h).isDigit = true := by simp [hexDigit_isDigit h (by omega), hh]
  simp [number, first, hexDigit_ne_H u (by omega), digits_hexDigit hh, digits_hexDigit ht, digits_hexDigit hu]
  omega

/-! ### The listing -/

/-- The listing begins with the first line's entry, and goes on from the address its bytes lead to; a line that emits
bytes has the address reached. -/
theorem entries_cons {env : Env} {pc : Nat} {l : Line × Text} {ls : List (Line × Text)} {es : List Entry}
    (h : entries env pc (l :: ls) = some es) :
    ∃ e es', es = e :: es' ∧ (e.bytes ≠ [] → e.addr = some pc) ∧
      (es' = [] ∨ entries env (pc + e.bytes.length) ls = some es') := by
  obtain ⟨⟨label, body⟩, text⟩ := l
  unfold entries at h
  split at h <;> simp only [Option.bind_eq_bind, Option.pure_def, Option.bind_eq_some_iff, Option.some.injEq] at h
  next =>
    subst h
    exact ⟨_, [], rfl, by simp, .inl rfl⟩
  next =>
    obtain ⟨es', rest, rfl⟩ := h
    exact ⟨_, es', rfl, by simp, .inr rest⟩
  next =>
    obtain ⟨v, -, es', rest, rfl⟩ := h
    exact ⟨_, es', rfl, by simp, .inr rest⟩
  next =>
    obtain ⟨bs, -, es', rest, rfl⟩ := h
    exact ⟨_, es', rfl, fun _ => rfl, .inr rest⟩

/-- The address of a line that emits bytes is `pc` and as many further as the lines above emit. -/
theorem entries_addr {env : Env} {pc : Nat} {ls : List (Line × Text)} {above below : List Entry} {e : Entry}
    (h : entries env pc ls = some (above ++ e :: below)) (he : e.bytes ≠ []) :
    e.addr = some (pc + (above.flatMap (·.bytes)).length) := by
  induction above generalizing pc ls with
  | nil =>
    cases ls with
    | nil => simp [entries] at h
    | cons l ls =>
      obtain ⟨first, es, hes, addr, -⟩ := entries_cons h
      obtain ⟨rfl, -⟩ := List.cons.inj hes
      simpa using addr he
  | cons top above ih =>
    cases ls with
    | nil => simp [entries] at h
    | cons l ls =>
      obtain ⟨first, es, hes, -, rest⟩ := entries_cons h
      obtain ⟨rfl, rfl⟩ := List.cons.inj hes
      obtain none_left | rest := rest
      · simp at none_left
      · simpa [Nat.add_assoc] using ih rest

/-! ### The end of the source -/

/-- No line after `END` is read, so the source may as well end there. -/
theorem parseSource_append_end {t : Text} {l : Line} (h : parseLine t = some l) (hb : l.body = .finish)
    (above below : List Text) : parseSource (above ++ t :: below) = parseSource (above ++ [t]) := by
  induction above with
  | nil => rw [List.nil_append, List.nil_append, parseSource_end h hb, parseSource_end h hb]
  | cons x above ih => rw [List.cons_append, List.cons_append, parseSource, parseSource, ih]

end Sys2Proof.Asm

namespace Sys2Proof.Proofs

open Sys2Proof.Asm

/-- Settles O50, by the table of mnemonics and the round trip of encoding and decoding. -/
theorem assembledInstructionIsOne : Obligations.AssembledInstructionIsOne := by
  intro env mn ops i h
  obtain ⟨wellFormed, used⟩ := toInstr_writable h
  exact ⟨wellFormed, used, by simpa using decode_encode i []⟩

/-- Settles O51: each family has its mnemonics, and a byte is written as a number. -/
theorem everyInstructionHasASourceForm : Obligations.EveryInstructionHasASourceForm :=
  fun env _ wellFormed used => exists_written env ⟨wellFormed, used⟩

/-- Settles O52, by the value of a digit and of the digits before it. -/
theorem numbersReadAsWritten : Obligations.NumbersReadAsWritten :=
  ⟨fun b => number_hex b.isLt, fun h t u => number_decimal h.isLt t.isLt u.isLt⟩

/-- Settles O53, by induction on the lines above, from any address on. -/
theorem listingAddressesAreOffsets : Obligations.ListingAddressesAreOffsets := by
  intro src above below e h he
  simp only [listing, Option.bind_eq_bind, Option.bind_eq_some_iff] at h
  obtain ⟨ls, -, tbl, -, hes⟩ := h
  simpa using entries_addr hes he

/-- Settles O55, by induction on the lines above: one of them ends the source, is refused, or is passed. -/
theorem endEndsTheSource : Obligations.EndEndsTheSource := by
  intro above below t h
  rw [listing, listing, parseSource_append_end h rfl above below]

end Sys2Proof.Proofs

/-! SUPPORT. The first bytes of type 1 and of the unused code, and the step at one of them. -/

namespace Sys2Proof.Machine

open Sys2Proof.Claims

variable {i : Instr} {b e : Byte} {s t : State}

/-- A first byte with the code of a one-byte instruction decodes to it (rule R62). -/
theorem decode_of_sameCode (he : encode i = [e]) (same : SameCode b e) (rest : List Byte) :
    decode (b :: rest) = .ok (i, rest) := by
  rw [decode_congr same]
  simpa [he] using decode_encode i rest

/-- The five high bits of a first byte tell a type 1 instruction (rules R51 and R62). -/
theorem sameCode_of_eighth : ∀ row ∈ type1Codes, row.1 ≠ .unused5x →
    ∀ b : Byte, b.toNat / 8 = row.2.toNat / 8 → SameCode b row.2 := by
  unfold SameCode
  decide

/-- The four high bits of a first byte tell the unused code (rule R63). -/
theorem sameCode_unused5x : ∀ b : Byte, b.toNat / 16 = 5 → SameCode b 0x50 := by
  unfold SameCode
  decide

/-- Each type 1 instruction has the eight first bytes that share their five high bits. -/
theorem decode_of_eighth (row : (i, e) ∈ type1Codes) (used : i ≠ .unused5x) (h : b.toNat / 8 = e.toNat / 8)
    (rest : List Byte) : decode (b :: rest) = .ok (i, rest) :=
  decode_of_sameCode (encode_type1 _ row) (sameCode_of_eighth _ row used b h) rest

/-- A step at a byte that is a whole instruction executes it with PC one on and the byte in IR (rules R14 and R18). -/
theorem step_of_whole (running : s.run = .running) (whole : ∀ rest, decode (byteAtPc s :: rest) = .ok (i, rest))
    (h : exec i { s with pc := s.pc + 1, ir := byteAtPc s } = .next t) : step s = .next t.endStep :=
  step_next.2 ⟨running, t, by rwa [fetch_of_decode (whole _)], rfl⟩

/-- The step at a byte of HLT or of the unused code (rules R63 and R81). -/
theorem step_at_halt (running : s.run = .running)
    (h : (byteAtPc s).toNat / 8 = 1 ∨ (byteAtPc s).toNat / 16 = 5) :
    step s = .next ({ s with pc := s.pc + 1, ir := byteAtPc s } : State).halt.endStep := by
  obtain hlt | unused := h
  · exact step_of_whole running (decode_of_eighth (e := 0x0F) (by decide) (by decide) hlt) (exec_hlt _)
  · exact step_of_whole running (decode_of_sameCode rfl (sameCode_unused5x _ unused)) (exec_unused5x _)

end Sys2Proof.Machine

/-! CERTIFICATES. The statements about the instructions of type 1. -/

namespace Sys2Proof.Proofs

open Sys2Proof.Machine Sys2Proof.Claims

/-- Settles O24: the step is the fetch, for NOP executes to the state itself. -/
theorem nopDoesNothing : Obligations.NopDoesNothing := by
  have decodes : ∀ (b : Byte) (rest : List Byte), b.toNat < 0x08 → decode (b :: rest) = .ok (.nop, rest) :=
    fun _ rest h => decode_of_eighth (e := 0x00) (by decide) (by decide) (Nat.div_eq_of_lt h) rest
  refine ⟨decodes, exec_nop, fun s running h => ?_⟩
  exact ⟨_, step_of_whole running (fun rest => decodes _ rest h) (exec_nop _), rfl, ⟨rfl, rfl⟩,
    ⟨rfl, rfl, rfl, rfl⟩, fun _ => rfl, rfl, running⟩

/-- Settles O25, by the codes of RCF and SCF and the equations of `exec`. -/
theorem carryFlagInstructions : Obligations.CarryFlagInstructions :=
  ⟨fun _ rest h => decode_of_eighth (e := 0x20) (by decide) (by decide) h rest,
    fun _ rest h => decode_of_eighth (e := 0x2F) (by decide) (by decide) h rest,
    exec_rcf, exec_scf⟩

/-- Settles O26, by the codes of OUT and IN and the equations of `exec`. -/
theorem outAndInMoveTheAccumulator : Obligations.OutAndInMoveTheAccumulator :=
  ⟨fun _ rest h => decode_of_eighth (e := 0x10) (by decide) (by decide) h rest,
    fun _ rest h => decode_of_eighth (e := 0x1F) (by decide) (by decide) h rest,
    exec_out, exec_inp⟩

/-- Settles O27: both codes halt, and a halted state's step is the fault that says so. -/
theorem haltEndsTheRun : Obligations.HaltEndsTheRun := by
  refine ⟨exec_hlt, exec_unused5x, fun s running h => ?_⟩
  exact ⟨_, step_at_halt running h, rfl, rfl, ⟨rfl, rfl⟩, ⟨rfl, rfl, rfl, rfl⟩, fun _ => rfl, rfl, rfl,
    step_fault.2 (.inl ⟨rfl, rfl⟩)⟩

end Sys2Proof.Proofs

/-! SUPPORT. The branches: when each is taken, and what the flags of a difference say of its operands. -/

namespace Sys2Proof.Machine

open Sys2Proof.Claims

variable (s : State) {t : State}

/-! ### When a branch is taken -/

/-- The model's condition is the table's (rule R59). -/
theorem holds_iff (cc : Cond) : s.holds cc = true ↔ CondMet s cc := by
  cases cc <;> simp [State.holds, CondMet]

/-- A branch goes to `d` exactly when what its condition amounts to holds (rule R90). -/
theorem exec_branch_of_iff {cc : Cond} {P : Prop} [Decidable P] (h : CondMet s cc ↔ P) (d : Byte) :
    exec (branchInstr cc d) s = .next { s with pc := if P then d else s.pc } := by
  rw [exec_branchInstr]
  simp only [holds_iff, h]
  rfl

/-- Every branch decodes from its two bytes and writes PC alone. -/
theorem branchRuns (cc : Cond) : BranchRuns cc := by
  refine ⟨fun d rest => decode_needsSecond (decodeFirst_branchByte cc) d rest, fun d s => ?_⟩
  exact ⟨_, exec_branchInstr s cc d, fun met => if_pos ((holds_iff s cc).2 met),
    fun unmet => if_neg (mt (holds_iff s cc).1 unmet), ⟨rfl, rfl⟩, ⟨rfl, rfl, rfl, rfl⟩, fun _ => rfl,
    ⟨rfl, rfl, rfl, rfl, rfl, rfl, rfl, rfl⟩⟩

/-! ### Conditions by one another (rules R101 to R106) -/

theorem condMet_nc_iff : CondMet s .nc ↔ ¬ CondMet s .c := by simp [CondMet]

theorem condMet_ge_iff : CondMet s .ge ↔ ¬ CondMet s .lt := by simp [CondMet]

theorem condMet_le_iff : CondMet s .le ↔ CondMet s .lt ∨ CondMet s .z := Iff.rfl

theorem condMet_gt_iff : CondMet s .gt ↔ ¬ CondMet s .le := by simp [CondMet]

/-! ### The flags of a difference -/

theorem op2Of_eq_val2 (o : Operand2) : op2Of s o = s.val2 o := by
  cases o with
  | reg b => exact regOf_eq_reg s b
  | imm d => rfl
  | mem m d => rfl

/-- N says that the result is negative as a signed number (rule R16). -/
theorem negFlag_eq (r : Byte) : negFlag r = decide (r.toInt < 0) :=
  (BitVec.msb_eq_getLsbD_last r).symm.trans BitVec.msb_eq_toInt

section Sub

variable (x y : Byte) (c : Bool)

theorem subOut_r : (subOut x y c).r = x - y - BitVec.ofNat 8 c.toNat := by
  simp [subOut, sub_eq_add_neg, BitVec.ofInt_add, BitVec.ofInt_neg, BitVec.ofInt_natCast]

/-- The result is the exact signed difference wrapped to a byte. -/
theorem subOut_r_toInt : (subOut x y c).r.toInt = (x.toInt - y.toInt - c.toNat).bmod 256 := by
  rw [subOut_r, BitVec.toInt_sub, BitVec.toInt_sub]
  cases c <;> simp

/-- V and N differ exactly when the exact signed difference is negative: where it does not fit, N has its sign wrong
(rules R107 and R136). -/
theorem subOut_v_ne_negFlag :
    (subOut x y c).v ≠ negFlag (subOut x y c).r ↔ x.toInt - y.toInt - c.toNat < 0 := by
  have carry : c.toNat ≤ 1 := c.toNat_le
  have hx := x.le_toInt
  have hx' := x.toInt_lt
  have hy := y.le_toInt
  have hy' := y.toInt_lt
  rw [negFlag_eq, subOut_r_toInt, Int.bmod_def]
  simp only [subOut, overflows, ne_eq, decide_eq_decide]
  omega

/-- C is the borrow: the exact unsigned difference is negative (rule R137, decision D7). -/
theorem subOut_c_iff : (subOut x y c).c = true ↔ x.toNat < y.toNat + c.toNat := by
  simp only [subOut, decide_eq_true_eq]
  omega

theorem zeroFlag_subOut : zeroFlag (subOut x y false).r = true ↔ x = y := by
  rw [zeroFlag, decide_eq_true_eq, subOut_r]
  change x - y - 0 = 0 ↔ x = y
  rw [sub_zero, sub_eq_zero]

end Sub

variable {s} {op : AluOp} {a : Reg} {o : Operand2}

/-- SUB and CMP leave the flags V, N and Z of one difference (rules R139 and R144), so the signed conditions on them
compare the operands (rule R107). -/
theorem condMet_of_difference (hop : op ∈ [AluOp.cmp, .sub]) (h : exec (aluInstr op a o) s = .next t) :
    (CondMet t .lt ↔ (regOf s a).toInt < (op2Of s o).toInt) ∧ (CondMet t .z ↔ regOf s a = op2Of s o) := by
  obtain rfl := Host.Outcome.next.inj ((exec_aluInstr s op a o).symm.trans h)
  have less := subOut_v_ne_negFlag (s.reg a) (s.val2 o) false
  have equal := zeroFlag_subOut (s.reg a) (s.val2 o)
  rw [regOf_eq_reg, op2Of_eq_val2]
  obtain rfl | rfl : op = .cmp ∨ op = .sub := by simpa using hop
  all_goals exact ⟨less.trans (by simp [sub_neg]), equal⟩

/-- With no borrow going in, SBC borrows exactly when the first operand is below the second (rule R137). -/
theorem condMet_of_borrow (hc : s.cf = false) (h : exec (aluInstr .sbc a o) s = .next t) :
    CondMet t .c ↔ (regOf s a).toNat < (op2Of s o).toNat := by
  obtain rfl := Host.Outcome.next.inj ((exec_aluInstr s .sbc a o).symm.trans h)
  rw [regOf_eq_reg, op2Of_eq_val2]
  change (subOut (s.reg a) (s.val2 o) s.cf).c = true ↔ _
  rw [subOut_c_iff, hc, Bool.toNat_false, Nat.add_zero]

end Sys2Proof.Machine

/-! CERTIFICATES. The statements about the branches. -/

namespace Sys2Proof.Proofs

open Sys2Proof.Machine Sys2Proof.Claims

/-- Settles O31: the four signed conditions are "less" and "equal" of the operands, put together. -/
theorem signedBranchesCompareOperands : Obligations.SignedBranchesCompareOperands := by
  intro op hop a x s t d h
  obtain ⟨less, equal⟩ := condMet_of_difference hop h
  have equalInt := equal.trans BitVec.toInt_inj.symm
  have ge := (condMet_ge_iff t).trans (less.not.trans not_lt)
  have lessOrEqual : CondMet t .le ↔ (regOf s a).toInt ≤ (op2Of s x).toInt :=
    (condMet_le_iff t).trans ((or_congr less equalInt).trans le_iff_lt_or_eq.symm)
  have gt := (condMet_gt_iff t).trans (lessOrEqual.not.trans not_le)
  exact ⟨exec_branch_of_iff t ge d, exec_branch_of_iff t less d, exec_branch_of_iff t gt d,
    exec_branch_of_iff t lessOrEqual d, exec_branch_of_iff t equal d⟩

/-- Settles O32, by the borrow of SBC. -/
theorem borrowComparesUnsigned : Obligations.BorrowComparesUnsigned := by
  intro a x s t d hc h
  have borrow := condMet_of_borrow hc h
  have noBorrow := (condMet_nc_iff t).trans (borrow.not.trans not_lt)
  exact ⟨exec_branch_of_iff t borrow d, exec_branch_of_iff t noBorrow d⟩

/-- Settles O28: the branch with any condition runs as rule R90 says. -/
theorem flagBranches : Obligations.FlagBranches := fun cc _ => branchRuns cc

/-- Settles O30, as one more family of conditions of `branchRuns`. -/
theorem signedBranches : Obligations.SignedBranches := fun cc _ => branchRuns cc

/-- Settles O29: the levels that the state holds are conditions as the flags are. -/
theorem signalBranches : Obligations.SignalBranches := ⟨branchRuns .ni, branchRuns .no⟩

end Sys2Proof.Proofs

/-! SUPPORT. The sign flags of a result; the shifts and rotates as numbers, and repeated as rotations of a word. -/

namespace Sys2Proof.Machine

open Sys2Proof.Claims

variable {i : Instr} {s t : State}

/-! ### NF and ZF are those of one result -/

theorem signOk_iff : s.signOk = true ↔ ¬ (s.nf = true ∧ s.zf = true) := by
  simp [State.signOk, imp_iff_not_or]

/-- No result is both negative and zero (rule R136). -/
theorem signOk_commit (dst : Option Reg) (x : ArithOut) : (s.commit dst x).signOk = true := by
  rw [signOk_iff, commit_nf, commit_zf]
  rintro ⟨negative, zero⟩
  rw [of_decide_eq_true zero] at negative
  cases negative

/-- An instruction writes NF and ZF of a result, or leaves both. -/
theorem exec_keeps_signOk (hs : s.signOk = true) (h : exec i s = .next t) : t.signOk = true := by
  cases exec_next.1 h with
  | shift op a => exact signOk_commit _ _
  | alu op a o => exact signOk_commit _ _
  | _ => simpa [State.signOk] using hs

theorem signOk_fetch (hs : s.signOk = true) : s.fetch.2.signOk = true := by
  rw [fetch_state]
  exact hs

theorem signOk_endStep (s : State) : s.endStep.signOk = s.signOk := rfl

/-! ### What an outcome leaves in the state -/

theorem regWritten_commit (s : State) (a : Reg) (x : ArithOut) : RegWritten a x.r s (s.commit (some a) x) := by
  cases a <;> exact ⟨rfl, rfl⟩

theorem sameBeyondRegs_commit (s : State) (dst : Option Reg) (x : ArithOut) :
    SameBeyondRegs s (s.commit dst x) := by
  simp [SameBeyondRegs, SameMemory, SameSystem]

/-- NF and ZF of a committed outcome are those of its result (rule R16). -/
theorem resultFlags_commit (s : State) (dst : Option Reg) (x : ArithOut) :
    ResultFlags x.r (s.commit dst x) := by
  have sign : negFlag x.r = decide (128 ≤ x.r.toNat) :=
    (BitVec.msb_eq_getLsbD_last x.r).symm.trans (BitVec.msb_eq_decide x.r)
  simp [ResultFlags, sign, zeroFlag, ← BitVec.toNat_inj]

/-! ### The eight as numbers -/

theorem bit_le_one (b : Bool) : bit b ≤ 1 := by cases b <;> decide

theorem bit_eq_one_iff {b : Bool} : bit b = 1 ↔ b = true := by cases b <;> decide

theorem bit_msb (v : Byte) : bit v[7] = v.toNat / 128 := by revert v; decide

theorem bit_lsb (v : Byte) : bit v[0] = v.toNat % 2 := by revert v; decide

/-- Decision D5: VF of SLA and RLA. -/
theorem shiftOverflow_iff (v : Byte) : shiftOverflow v = true ↔ SignWouldChange v.toNat := by
  unfold SignWouldChange
  revert v
  decide

/-- The bit that enters counts 128, and the rest is the half (rules R112, R114, R116 and R118). -/
theorem rightOut_toNat (v : Byte) (top : Bool) : (rightOut v top).r.toNat = v.toNat / 2 + 128 * bit top := by
  simp only [rightOut]
  cases top <;> (revert v; decide)

section ShiftRuns

variable {op : ShiftOp} {res : Nat → Nat → Nat} {out ovf : Nat → Prop}

/-- A shift runs as the numbers of its outcome say. -/
theorem shiftRuns_of_out
    (hr : ∀ v c, (shiftOut op v c).r.toNat = res v.toNat (bit c))
    (hc : ∀ v c, (shiftOut op v c).c = true ↔ out v.toNat)
    (hv : ∀ v c, (shiftOut op v c).v = true ↔ ovf v.toNat) :
    ShiftRuns (shiftInstr op) (codeByte 0x4 .acc (shiftCode op)) (codeByte 0x4 .ix (shiftCode op)) res out ovf := by
  have decodes : ∀ a rest, decode (codeByte 0x4 a (shiftCode op) :: rest) = .ok (shiftInstr op a, rest) :=
    fun a => decode_whole (decodeFirst_shift a op)
  refine ⟨fun rest => ⟨decodes .acc rest, decodes .ix rest⟩,
    fun a s => ⟨_, _, exec_shiftInstr s op a, regWritten_commit s a _, ?_⟩⟩
  rw [regOf_eq_reg]
  exact ⟨hr _ _, hc _ _, hv _ _, resultFlags_commit s (some a) _, sameBeyondRegs_commit s (some a) _⟩

/-- A right shift halves, with `top` entering at bit 7. -/
theorem shiftRuns_right (top : Byte → Bool → Bool) (hop : ∀ v c, shiftOut op v c = rightOut v (top v c))
    (hres : ∀ v c, v.toNat / 2 + 128 * bit (top v c) = res v.toNat (bit c)) :
    ShiftRuns (shiftInstr op) (codeByte 0x4 .acc (shiftCode op)) (codeByte 0x4 .ix (shiftCode op)) res
      (fun v => v % 2 = 1) (fun _ => False) := by
  refine shiftRuns_of_out (fun v c => ?_) (fun v c => ?_) (fun v c => ?_) <;> rw [hop]
  · exact (rightOut_toNat v _).trans (hres v c)
  · rw [← bit_lsb, bit_eq_one_iff]
    rfl
  · simp [rightOut]

/-- A left shift doubles, with `low` entering at bit 0. -/
theorem shiftRuns_left (low : Byte → Bool → Bool) (vf : Byte → Bool)
    (hop : ∀ v c, shiftOut op v c = leftOut v (low v c) (vf v))
    (hres : ∀ v c, 2 * v.toNat % 256 + bit (low v c) = res v.toNat (bit c))
    (hvf : ∀ v, vf v = true ↔ ovf v.toNat) :
    ShiftRuns (shiftInstr op) (codeByte 0x4 .acc (shiftCode op)) (codeByte 0x4 .ix (shiftCode op)) res
      (fun v => 128 ≤ v) ovf := by
  refine shiftRuns_of_out (fun v c => ?_) (fun v c => ?_) (fun v c => ?_) <;> rw [hop]
  · have exact_sum := leftOut_toNat v (low v c) (vf v)
    have low_le := bit_le_one (low v c)
    have result_lt := (leftOut v (low v c) (vf v)).r.isLt
    rw [← hres]
    omega
  · rw [← bit_eq_one_iff]
    change bit v[7] = 1 ↔ _
    rw [bit_msb]
    have := v.isLt
    omega
  · exact hvf v

end ShiftRuns

/-! ### Repeated rotations -/

/-- An instruction that always has a next state, executed `n` times over. -/
theorem repeatExec_eq_iterate {f : State → State} (hf : ∀ s, exec i s = .next (f s)) (n : Nat) (s : State) :
    repeatExec i n s = .next (f^[n] s) := by
  induction n generalizing s with
  | zero => rfl
  | succ n ih =>
    rw [repeatExec, hf]
    exact ih (f s)

/-- The next state of a shift. -/
def State.shift (op : ShiftOp) (a : Reg) (s : State) : State := s.commit (some a) (shiftOut op (s.reg a) s.cf)

/-- CF and x[A] as one word of nine bits, CF above (rules R116 and R117). -/
def State.carryWord (a : Reg) (s : State) : BitVec 9 := BitVec.ofBool s.cf ++ s.reg a

theorem shift_reg_same (op : ShiftOp) (a : Reg) (s : State) :
    (s.shift op a).reg a = (shiftOut op (s.reg a) s.cf).r := by
  rw [State.shift, reg_commit, if_pos rfl]

theorem iterate_shift_reg_other (op : ShiftOp) {a b : Reg} (hne : a ≠ b) (n : Nat) (s : State) :
    ((State.shift op a)^[n] s).reg b = s.reg b := by
  have unwritten : Function.Semiconj (State.reg · b) (State.shift op a) id := fun s => by
    change (s.commit (some a) _).reg b = s.reg b
    rw [reg_commit, if_neg (by simpa using hne)]
  simpa using unwritten.iterate_right n s

/-- The bits of a word after `k` rotations by `r`, the first being the highest. -/
theorem getMsbD_iterate_rotateLeft {w : Nat} (r k n : Nat) (hn : n < w) (x : BitVec w) :
    ((·.rotateLeft r)^[k] x).getMsbD n = x.getMsbD ((k * r + n) % w) := by
  induction k generalizing x with
  | zero => simp [Nat.mod_eq_of_lt hn]
  | succ k ih =>
    have pos : 0 < w := n.zero_le.trans_lt hn
    rw [Function.iterate_succ_apply, ih, BitVec.getMsbD_rotateLeft, decide_eq_true (Nat.mod_lt _ pos),
      Bool.true_and, Nat.add_mod_mod, Nat.succ_mul, Nat.add_left_comm, Nat.add_assoc]

/-- As many rotations as a word has bits restore it. -/
theorem iterate_rotateLeft_width {w : Nat} (r : Nat) (x : BitVec w) : (·.rotateLeft r)^[w] x = x := by
  refine BitVec.eq_of_getMsbD_eq fun n hn => ?_
  rw [getMsbD_iterate_rotateLeft r w n hn, Nat.mul_add_mod, Nat.mod_eq_of_lt hn]

/-! ### The rotates as rotations of a word -/

variable {a : Reg}

theorem reg_shift_rll (s : State) : (s.shift .rll a).reg a = (s.reg a).rotateLeft 1 := by
  rw [shift_reg_same]
  generalize s.reg a = v
  simp only [shiftOut, leftOut]
  revert v
  decide

/-- To the right by one bit is to the left by the other seven. -/
theorem reg_shift_rrl (s : State) : (s.shift .rrl a).reg a = (s.reg a).rotateLeft 7 := by
  rw [shift_reg_same]
  generalize s.reg a = v
  simp only [shiftOut, rightOut]
  revert v
  decide

theorem carryWord_shift (op : ShiftOp) (s : State) :
    (s.shift op a).carryWord a =
      BitVec.ofBool (shiftOut op (s.reg a) s.cf).c ++ (shiftOut op (s.reg a) s.cf).r := by
  rw [State.carryWord, shift_reg_same]
  rfl

theorem carryWord_shift_rla (s : State) : (s.shift .rla a).carryWord a = (s.carryWord a).rotateLeft 1 := by
  rw [carryWord_shift, State.carryWord]
  generalize s.reg a = v
  simp only [shiftOut, leftOut]
  cases s.cf <;> (revert v; decide)

/-- To the right by one bit is to the left by the other eight. -/
theorem carryWord_shift_rra (s : State) : (s.shift .rra a).carryWord a = (s.carryWord a).rotateLeft 8 := by
  rw [carryWord_shift, State.carryWord]
  generalize s.reg a = v
  simp only [shiftOut, rightOut]
  cases s.cf <;> (revert v; decide)

theorem cf_and_reg_of_carryWord_eq (h : t.carryWord a = s.carryWord a) : t.cf = s.cf ∧ t.reg a = s.reg a := by
  have carry := congrArg (BitVec.extractLsb' 8 1) h
  have register := congrArg (BitVec.extractLsb' 0 8) h
  simp only [State.carryWord, BitVec.extractLsb'_append_eq_left] at carry
  simp only [State.carryWord, BitVec.extractLsb'_append_eq_right] at register
  exact ⟨BitVec.ofBool_eq_iff_eq.1 carry, register⟩

/-- A rotate that rotates a word which tells the register restores word and registers in as many steps as the word
has bits. -/
theorem repeatExec_rotate {op : ShiftOp} {w r : Nat} {word : State → BitVec w}
    (hword : ∀ s, word (s.shift op a) = (word s).rotateLeft r)
    (hreg : ∀ {s t}, word t = word s → t.reg a = s.reg a) (s : State) :
    ∃ t, repeatExec (shiftInstr op a) w s = .next t ∧ SameRegs s t ∧ word t = word s := by
  have rotated : Function.Semiconj word (State.shift op a) (·.rotateLeft r) := hword
  have restored := (rotated.iterate_right w s).trans (iterate_rotateLeft_width r (word s))
  have regs : ∀ b, ((State.shift op a)^[w] s).reg b = s.reg b := fun b => by
    by_cases hb : a = b
    · exact hb ▸ hreg restored
    · exact iterate_shift_reg_other op hb w s
  exact ⟨_, repeatExec_eq_iterate (exec_shiftInstr · op a) w s, ⟨regs .acc, regs .ix⟩, restored⟩

/-- A rotate through CF comes round in nine. -/
theorem repeatExec_rotate_carryWord {op : ShiftOp} {r : Nat}
    (hword : ∀ s : State, (s.shift op a).carryWord a = (s.carryWord a).rotateLeft r) (s : State) :
    ∃ t, repeatExec (shiftInstr op a) 9 s = .next t ∧ SameRegs s t ∧ t.cf = s.cf := by
  obtain ⟨t, ht, regs, word⟩ := repeatExec_rotate hword (fun h => (cf_and_reg_of_carryWord_eq h).2) s
  exact ⟨t, ht, regs, (cf_and_reg_of_carryWord_eq word).1⟩

/-- A rotate of the register alone comes round in eight. -/
theorem repeatExec_rotate_reg {op : ShiftOp} {r : Nat}
    (hword : ∀ s : State, (s.shift op a).reg a = (s.reg a).rotateLeft r) (s : State) :
    ∃ t, repeatExec (shiftInstr op a) 8 s = .next t ∧ SameRegs s t := by
  obtain ⟨t, ht, regs, -⟩ := repeatExec_rotate (word := (State.reg · a)) hword id s
  exact ⟨t, ht, regs⟩

end Sys2Proof.Machine

/-! CERTIFICATES. The statements about the sign flags and the shifts and rotates. -/

namespace Sys2Proof.Proofs

open Sys2Proof.Machine Sys2Proof.Claims

/-- Settles O14: a fetch leaves the flags, and an instruction that writes NF and ZF takes both from its result. -/
theorem stepKeepsSignOk : Obligations.StepKeepsSignOk := by
  intro s t hs h
  obtain ⟨-, u, hu, rfl⟩ := step_next.1 h
  rw [signOk_endStep]
  exact exec_keeps_signOk (signOk_fetch hs) hu

/-- Settles O33, by the bit that each of the four lets in at the top. -/
theorem rightShifts : Obligations.RightShifts :=
  ⟨shiftRuns_right (op := .sra) (fun v _ => v[7]) (fun _ _ => rfl) fun v _ => by rw [bit_msb],
    shiftRuns_right (op := .srl) (fun _ _ => false) (fun _ _ => rfl) fun _ _ => rfl,
    shiftRuns_right (op := .rra) (fun _ c => c) (fun _ _ => rfl) fun _ _ => rfl,
    shiftRuns_right (op := .rrl) (fun v _ => v[0]) (fun _ _ => rfl) fun v _ => by rw [bit_lsb]⟩

/-- Settles O34, by the bit that each lets in below. -/
theorem logicalLeftShifts : Obligations.LogicalLeftShifts :=
  ⟨shiftRuns_left (op := .sll) (fun _ _ => false) (fun _ => false) (fun _ _ => rfl) (fun _ _ => rfl) (by simp),
    shiftRuns_left (op := .rll) (fun v _ => v[7]) (fun _ => false) (fun _ _ => rfl) (fun v _ => by rw [bit_msb])
      (by simp)⟩

/-- Settles O35, by the bit that each lets in below and the overflow of decision D5. -/
theorem arithmeticLeftShifts : Obligations.ArithmeticLeftShifts :=
  ⟨shiftRuns_left (op := .sla) (fun _ _ => false) shiftOverflow (fun _ _ => rfl) (fun _ _ => rfl) shiftOverflow_iff,
    shiftRuns_left (op := .rla) (fun _ c => c) shiftOverflow (fun _ _ => rfl) (fun _ _ => rfl) shiftOverflow_iff⟩

/-- Settles O36: through CF the word that rotates has nine bits, else it is the register. -/
theorem rotationsComeRound : Obligations.RotationsComeRound := fun _ s =>
  ⟨repeatExec_rotate_carryWord carryWord_shift_rra s, repeatExec_rotate_carryWord carryWord_shift_rla s,
    repeatExec_rotate_reg reg_shift_rrl s, repeatExec_rotate_reg reg_shift_rll s⟩

end Sys2Proof.Proofs

/-! SUPPORT. Type 4: the fields of a first byte as the rules number them, the sixteen first bytes of an operation, and
the effective address as a number. -/

namespace Sys2Proof.Machine

open Sys2Proof.Claims

variable (s : State)

/-! ### The fields of a first byte as numbers (rules R54, R56 and R57) -/

section Fields

variable (op : BitVec 4) (a : Reg) (x : BitVec 3) (d : Byte)

theorem codeByte_toNat : (codeByte op a x).toNat = 16 * op.toNat + 8 * (encodeReg a).toNat + x.toNat := by
  cases a <;> (revert op x; decide)

theorem codeByte_toNat_div : (codeByte op a x).toNat / 16 = op.toNat := by
  have := (encodeReg a).isLt
  rw [codeByte_toNat]
  omega

theorem codeByte_toNat_mod : (codeByte op a x).toNat % 8 = x.toNat := by
  rw [codeByte_toNat]
  omega

@[simp] theorem regField_codeByte : regField (codeByte op a x) = a := by
  cases a <;> (revert op x; decide)

@[simp] theorem op2Field_reg (b : Reg) : op2Field (codeByte op a (0b00#2 ++ encodeReg b)) d = .reg b := by
  rw [op2Field, codeByte_toNat_mod]
  cases b <;> rfl

/-- Both values of the bit that rule R57 leaves open make an immediate. -/
theorem op2Field_imm (hx : x = 0b010 ∨ x = 0b011) : op2Field (codeByte op a x) d = .imm d := by
  rw [op2Field, codeByte_toNat_mod]
  obtain rfl | rfl := hx <;> rfl

@[simp] theorem op2Field_mem (m : MemMode) : op2Field (codeByte op a (encodeMode m)) d = .mem m d := by
  rw [op2Field, codeByte_toNat_mod]
  cases m <;> rfl

end Fields

/-- A first byte is its operation code with fields A and B. -/
theorem exists_codeByte_of_op {b : Byte} {op : BitVec 4} (h : b.toNat / 16 = op.toNat) :
    ∃ a x, b = codeByte op a x := by
  obtain ⟨op', a, x, rfl⟩ := exists_codeByte b
  obtain rfl : op' = op := BitVec.eq_of_toNat_eq ((codeByte_toNat_div op' a x).symm.trans h)
  exact ⟨a, x, rfl⟩

/-- Field B from 100 on names a memory form (rule R57). -/
theorem exists_codeByte_of_mem {b : Byte} {op : BitVec 4} (h : b.toNat / 16 = op.toNat) (memory : 4 ≤ b.toNat % 8) :
    ∃ a m, b = codeByte op a (encodeMode m) := by
  obtain ⟨a, x, rfl⟩ := exists_codeByte_of_op h
  rw [codeByte_toNat_mod] at memory
  obtain ⟨r, rfl⟩ | imm | memoryForm := form_cases x
  · cases r <;> exact absurd memory (by decide)
  · obtain rfl | rfl := imm <;> exact absurd memory (by decide)
  · obtain ⟨m, rfl⟩ := memoryForm
    exact ⟨a, m, rfl⟩

/-- An operation code that the decoder reads with `decodeType4` has all seven operand forms (rule R54). -/
theorem typeFourDecodes {op : BitVec 4} {mk : Reg → Operand2 → Instr}
    (hop : ∀ a x, decodeFirst (codeByte op a x) =
      decodeType4 (codeByte op a x) (fun a b => mk a (.reg b)) (fun a d => mk a (.imm d))
        (fun a m d => mk a (.mem m d))) : TypeFourDecodes op.toNat mk := by
  intro b d h
  obtain ⟨a, x, rfl⟩ := exists_codeByte_of_op h
  rw [regField_codeByte, codeByte_toNat_mod]
  obtain ⟨r, rfl⟩ | imm | ⟨m, rfl⟩ := form_cases x
  · rw [op2Field_reg, decode_whole ((hop _ _).trans (decodeType4_reg ..))]
    cases r <;> rfl
  · rw [op2Field_imm _ _ _ _ imm]
    obtain rfl | rfl := imm <;>
      exact decode_needsSecond ((hop _ _).trans (decodeType4_imm _ _ _ _ _ _ rfl rfl)) d []
  · rw [op2Field_mem, decode_needsSecond ((hop _ _).trans (decodeType4_mem ..))]
    cases m <;> rfl

/-! ### The effective address as a number (rule R127) -/

/-- B[0] is address bit 8, and B[1] says whether IX is added. -/
theorem ea_toNat (m : MemMode) (d : Byte) :
    (s.ea m d).toNat = 256 * ((encodeMode m).toNat % 2) +
      if (encodeMode m).toNat < 6 then d.toNat else (s.ix.toNat + d.toNat) % 256 := by
  cases m <;> simp [State.ea, effectiveAddr, encodeMode, progAddr_toNat, dataAddr_toNat]

/-! ### What LD and ST leave -/

variable (a : Reg) (v : Byte)

theorem regWritten_setReg : RegWritten a v s (s.setReg a v) := by
  cases a <;> exact ⟨rfl, rfl⟩

theorem sameFlags_setReg : SameFlags s (s.setReg a v) := by
  simp [SameFlags]

theorem sameBeyondRegs_setReg : SameBeyondRegs s (s.setReg a v) := by
  simp [SameBeyondRegs, SameMemory, SameSystem]

theorem sameFlags_store (x : Addr) : SameFlags s (s.store x v) := ⟨rfl, rfl, rfl, rfl⟩

theorem sameSystem_store (x : Addr) : SameSystem s (s.store x v) := ⟨rfl, rfl, rfl, rfl, rfl, rfl, rfl, rfl⟩

end Sys2Proof.Machine

/-! CERTIFICATES. The statements about the effective address, LD and ST. -/

namespace Sys2Proof.Proofs

open Sys2Proof.Machine Sys2Proof.Claims

/-- Settles O38: field B of the first byte is the code of the form, which tells the address. -/
theorem effectiveAddresses : Obligations.EffectiveAddresses := by
  refine ⟨fun b d s op memory => ?_, fun s d => ?_, fun m d s => ?_⟩
  · obtain ⟨a, m, rfl⟩ := exists_codeByte_of_mem (op := 0x6) op memory
    have field := codeByte_toNat_mod 0x6 a (encodeMode m)
    refine ⟨m, ?_, ?_⟩
    · rw [regField_codeByte]
      exact decode_encode (.ldMem a m d) []
    · rw [field, ← Nat.mod_mod_of_dvd _ (by decide : 2 ∣ 8), field]
      exact ea_toNat s m d
  · simp [ea_toNat, encodeMode]
  · exact ⟨_, _, exec_ldInstr s .acc (.mem m d), rfl, sameFlags_setReg s .acc _, exec_stMem s .acc m d, rfl,
      sameFlags_store s _ _⟩

/-- Settles O39: LD is decoded as every type 4 operation is, and sets one register to the operand's value. -/
theorem loadMovesOperand : Obligations.LoadMovesOperand := by
  refine ⟨typeFourDecodes (op := 0x6) decodeFirst_ld, fun a x s => ⟨_, exec_ldInstr s a x, ?_⟩⟩
  rw [op2Of_eq_val2]
  exact ⟨regWritten_setReg s a _, sameFlags_setReg s a _, sameBeyondRegs_setReg s a _⟩

/-- Settles O40, by the read of a memory after one write. -/
theorem storeWritesOneByte : Obligations.StoreWritesOneByte := by
  refine ⟨fun b d op memory => ?_, fun a m d s => ⟨_, exec_stMem s a m d, fun canonical x => ?_, ?_⟩⟩
  · obtain ⟨a, m, rfl⟩ := exists_codeByte_of_mem (op := 0x7) op memory
    rw [regField_codeByte]
    exact ⟨m, op2Field_mem _ a d m, decode_encode (.stMem a m d) []⟩
  · rw [store_mem, Memory.read_write canonical, regOf_eq_reg]
  · exact ⟨rfl, ⟨rfl, rfl⟩, sameFlags_store s _ _, sameSystem_store s _ _⟩

end Sys2Proof.Proofs

/-! SUPPORT. The outcomes of the arithmetic and logic instructions: as numbers, by bits, and in the state they leave. -/

namespace Sys2Proof.Machine

open Sys2Proof.Claims

theorem bit_eq_toNat (b : Bool) : bit b = b.toNat := by cases b <;> rfl

@[simp] theorem bit_false : bit false = 0 := rfl

/-- The byte that an exact value wraps to is that value exactly where no overflow is reported (rule R136). -/
theorem overflows_iff {e : Int} {r : Byte} (wraps : r.toInt = e.bmod 256) : overflows e = true ↔ e ≠ r.toInt := by
  rw [wraps, Int.bmod_def, overflows, decide_eq_true_eq]
  omega

/-! ### Additions and subtractions -/

section Arith

variable (x y : Byte) (c : Bool)

theorem addOut_r : (addOut x y c).r = x + y + BitVec.ofNat 8 (bit c) := by
  simp [addOut, bit_eq_toNat, BitVec.ofNat_add]

theorem subOut_r_bit : (subOut x y c).r = x - y - BitVec.ofNat 8 (bit c) := by
  rw [bit_eq_toNat, subOut_r]

/-- The result is the exact signed sum wrapped to a byte. -/
theorem addOut_r_toInt : (addOut x y c).r.toInt = (x.toInt + y.toInt + c.toNat).bmod 256 := by
  rw [addOut_r, BitVec.toInt_add, BitVec.toInt_add]
  cases c <;> simp [bit]

/-- C is the carry: the unsigned sum reaches 256 (rule R138). -/
theorem addOut_c_iff : (addOut x y c).c = true ↔ 256 ≤ x.toNat + y.toNat + bit c := by
  rw [bit_eq_toNat]
  exact decide_eq_true_iff

theorem subOut_c_iff_bit : (subOut x y c).c = true ↔ x.toNat < y.toNat + bit c := by
  rw [bit_eq_toNat, subOut_c_iff]

/-- V says that the exact signed sum is not the signed result (rule R136). -/
theorem addOut_v_iff : (addOut x y c).v = true ↔ x.toInt + y.toInt + bit c ≠ (addOut x y c).r.toInt := by
  rw [bit_eq_toNat]
  exact overflows_iff (addOut_r_toInt x y c)

/-- V says that the exact signed difference is not the signed result (rule R136). -/
theorem subOut_v_iff : (subOut x y c).v = true ↔ x.toInt - y.toInt - bit c ≠ (subOut x y c).r.toInt := by
  rw [bit_eq_toNat]
  exact overflows_iff (subOut_r_toInt x y c)

/-- V of a sum by bits: operands of one sign give a result of the other. -/
theorem addOut_v_iff_msb :
    (addOut x y c).v = true ↔ x.msb = y.msb ∧ (addOut x y c).r.msb ≠ x.msb := by
  have carry : c.toNat ≤ 1 := c.toNat_le
  have hx := x.le_toInt
  have hx' := x.toInt_lt
  have hy := y.le_toInt
  have hy' := y.toInt_lt
  simp only [BitVec.msb_eq_toInt, addOut_r_toInt, Int.bmod_def, ne_eq, decide_eq_decide]
  simp only [addOut, overflows, decide_eq_true_eq]
  omega

/-- V of a difference by bits: operands of two signs give a result of the second's. -/
theorem subOut_v_iff_msb :
    (subOut x y c).v = true ↔ x.msb ≠ y.msb ∧ (subOut x y c).r.msb ≠ x.msb := by
  have carry : c.toNat ≤ 1 := c.toNat_le
  have hx := x.le_toInt
  have hx' := x.toInt_lt
  have hy := y.le_toInt
  have hy' := y.toInt_lt
  simp only [BitVec.msb_eq_toInt, subOut_r_toInt, Int.bmod_def, ne_eq, decide_eq_decide]
  simp only [subOut, overflows, decide_eq_true_eq]
  omega

/-- The carry counts 256 (rule R138). -/
theorem addOut_toNat : 256 * bit (addOut x y c).c + (addOut x y c).r.toNat = x.toNat + y.toNat + bit c := by
  have carry := bit_le_one c
  have wrapped : (addOut x y c).r.toNat = (x.toNat + y.toNat + bit c) % 256 := by simp [addOut_r]
  have hc := addOut_c_iff x y c
  rw [← bit_eq_one_iff] at hc
  have out := bit_le_one (addOut x y c).c
  omega

/-- The borrow counts 256 (rule R137, decision D7). -/
theorem subOut_toNat : (subOut x y c).r.toNat + y.toNat + bit c = 256 * bit (subOut x y c).c + x.toNat := by
  have borrow := bit_le_one c
  have wrapped : (subOut x y c).r.toNat = (x.toNat + (256 - y.toNat) + (256 - bit c)) % 256 := by
    simp only [subOut_r_bit, BitVec.toNat_sub, BitVec.toNat_ofNat]
    omega
  have hc := subOut_c_iff_bit x y c
  rw [← bit_eq_one_iff] at hc
  have out := bit_le_one (subOut x y c).c
  omega

end Arith

/-! ### Without a carry or borrow going in (rules R139 and R140) -/

section NoCarry

variable (x y : Byte)

theorem addOut_r_noCarry : (addOut x y false).r = x + y := by simpa using addOut_r x y false

theorem subOut_r_noBorrow : (subOut x y false).r = x - y := by simpa using subOut_r_bit x y false

theorem addOut_v_iff_noCarry : (addOut x y false).v = true ↔ x.toInt + y.toInt ≠ (addOut x y false).r.toInt := by
  simpa using addOut_v_iff x y false

theorem subOut_v_iff_noBorrow : (subOut x y false).v = true ↔ x.toInt - y.toInt ≠ (subOut x y false).r.toInt := by
  simpa using subOut_v_iff x y false

end NoCarry

/-! ### What an instruction leaves in the state -/

section Exec

variable {s t : State} {op : AluOp} {a : Reg} {o : Operand2}

/-- CMP alone has no destination (rule R144). -/
theorem destination_aluInstr : destination (aluInstr op a o) = if op = .cmp then none else some a := by
  cases op <;> cases o <;> rfl

/-- Every operation but CMP writes its result to x[A], from the operands before it (rule R126). -/
theorem exec_alu_write (write : op ≠ .cmp) :
    exec (aluInstr op a o) s = .next (s.commit (some a) (aluOut op (regOf s a) (op2Of s o) s.cf)) := by
  rw [exec_aluInstr, destination_aluInstr, if_neg write, regOf_eq_reg, op2Of_eq_val2]

theorem exec_cmp :
    exec (aluInstr .cmp a o) s = .next (s.commit none (aluOut .cmp (regOf s a) (op2Of s o) s.cf)) := by
  rw [exec_aluInstr, destination_aluInstr, if_pos rfl, regOf_eq_reg, op2Of_eq_val2]

theorem regOf_commit_same (s : State) (a : Reg) (x : ArithOut) : regOf (s.commit (some a) x) a = x.r := by
  rw [regOf_eq_reg, reg_commit, if_pos rfl]

/-- ADC in a state: the carry counts 256 (rule R138). -/
theorem exec_adc_toNat (h : exec (aluInstr .adc a o) s = .next t) :
    256 * bit t.cf + (regOf t a).toNat = (regOf s a).toNat + (op2Of s o).toNat + bit s.cf := by
  obtain rfl := Host.Outcome.next.inj ((exec_alu_write (by decide)).symm.trans h)
  rw [regOf_commit_same]
  exact addOut_toNat _ _ _

/-- SBC in a state: the borrow counts 256 (rule R137, decision D7). -/
theorem exec_sbc_toNat (h : exec (aluInstr .sbc a o) s = .next t) :
    (regOf t a).toNat + (op2Of s o).toNat + bit s.cf = 256 * bit t.cf + (regOf s a).toNat := by
  obtain rfl := Host.Outcome.next.inj ((exec_alu_write (by decide)).symm.trans h)
  rw [regOf_commit_same]
  exact subOut_toNat _ _ _

/-- In a chain over ACC then IX, the first instruction leaves IX and the second ACC. -/
theorem pairOf_of_chain {x y : Operand2} {u : State} (low : exec (aluInstr op .acc x) s = .next t)
    (high : exec (aluInstr op .ix y) t = .next u) :
    pairOf s = 256 * (regOf t .ix).toNat + (regOf s .acc).toNat ∧
    pairOf u = 256 * (regOf u .ix).toNat + (regOf t .acc).toNat := by
  have ixKept : t.ix = s.ix := exec_reg (a := .ix) low (by rw [destination_aluInstr]; split <;> decide)
  have accKept : u.acc = t.acc := exec_reg (a := .acc) high (by rw [destination_aluInstr]; split <;> decide)
  simp [pairOf, regOf, ixKept, accKept]

end Exec

end Sys2Proof.Machine

/-! CERTIFICATES. The statements about the arithmetic and logic instructions. -/

namespace Sys2Proof.Proofs

open Sys2Proof.Machine Sys2Proof.Claims

/-- Settles O43: ADC writes the outcome of the addition with CF going in. -/
theorem adcAddsWithCarry : Obligations.AdcAddsWithCarry :=
  ⟨typeFourDecodes (decodeFirst_alu · · .adc), fun _ _ s => ⟨_, _, exec_alu_write (by decide),
    regWritten_commit s _ _, addOut_r _ _ _, addOut_c_iff _ _ _, addOut_v_iff _ _ _, addOut_v_iff_msb _ _ _,
    resultFlags_commit s _ _, sameBeyondRegs_commit s _ _⟩⟩

/-- Settles O44: SBC writes the outcome of the subtraction with CF going in as the borrow. -/
theorem sbcSubtractsWithBorrow : Obligations.SbcSubtractsWithBorrow :=
  ⟨typeFourDecodes (decodeFirst_alu · · .sbc), fun _ _ s => ⟨_, _, exec_alu_write (by decide),
    regWritten_commit s _ _, subOut_r_bit _ _ _, subOut_c_iff_bit _ _ _, subOut_v_iff _ _ _, subOut_v_iff_msb _ _ _,
    resultFlags_commit s _ _, sameBeyondRegs_commit s _ _⟩⟩

/-- Settles O45: ADD writes the outcome of the addition with no carry going in, and CF as it was. -/
theorem addLeavesCarry : Obligations.AddLeavesCarry :=
  ⟨typeFourDecodes (decodeFirst_alu · · .add), fun _ _ s => ⟨_, _, exec_alu_write (by decide),
    regWritten_commit s _ _, addOut_r_noCarry _ _, rfl, addOut_v_iff_noCarry _ _, addOut_v_iff_msb _ _ _,
    resultFlags_commit s _ _, sameBeyondRegs_commit s _ _⟩⟩

/-- Settles O46: SUB and CMP have one outcome, which SUB writes to x[A] and CMP to the flags alone. -/
theorem subAndCmpLeaveCarry : Obligations.SubAndCmpLeaveCarry := by
  refine ⟨typeFourDecodes (decodeFirst_alu · · .sub), typeFourDecodes (decodeFirst_alu · · .cmp),
    fun op hop a x s => ?_⟩
  have result := subOut_r_noBorrow (regOf s a) (op2Of s x)
  have overflow := subOut_v_iff_noBorrow (regOf s a) (op2Of s x)
  have overflowBits := subOut_v_iff_msb (regOf s a) (op2Of s x) false
  obtain rfl | rfl : op = .sub ∨ op = .cmp := by simpa using hop
  · exact ⟨_, _, exec_alu_write (by decide), result, fun _ => regWritten_commit s a _, nofun, rfl, overflow,
      overflowBits, resultFlags_commit s _ _, sameBeyondRegs_commit s _ _⟩
  · exact ⟨_, _, exec_cmp, result, nofun, fun _ => ⟨rfl, rfl⟩, rfl, overflow,
      overflowBits, resultFlags_commit s _ _, sameBeyondRegs_commit s _ _⟩

/-- Settles O47: the three write the operands combined bit by bit. -/
theorem logicBitByBit : Obligations.LogicBitByBit := by
  refine ⟨typeFourDecodes (decodeFirst_alu · · .eor), typeFourDecodes (decodeFirst_alu · · .orr),
    typeFourDecodes (decodeFirst_alu · · .andd), fun op hop a x s => ?_⟩
  obtain rfl | rfl | rfl : op = .eor ∨ op = .orr ∨ op = .andd := by simpa using hop
  all_goals refine ⟨_, _, exec_alu_write (by decide), regWritten_commit s a _, fun k _ => ?_, rfl, rfl,
    resultFlags_commit s _ _, sameBeyondRegs_commit s _ _⟩
  · exact BitVec.getLsbD_xor
  · exact BitVec.getLsbD_or
  · exact BitVec.getLsbD_and

/-- Settles O48: the carry of the low bytes goes into the sum of the high bytes, and neither ADC touches the register
of the other. -/
theorem adcChainAddsSixteenBits : Obligations.AdcChainAddsSixteenBits := by
  intro x y s t u noCarry low high
  have lowSum := exec_adc_toNat low
  have highSum := exec_adc_toNat high
  obtain ⟨before, after⟩ := pairOf_of_chain low high
  rw [noCarry, bit_false] at lowSum
  omega

/-- Settles O49: the borrow of the low bytes goes into the difference of the high bytes, and neither SBC touches the
register of the other. -/
theorem sbcChainSubtractsSixteenBits : Obligations.SbcChainSubtractsSixteenBits := by
  intro x y s t u noBorrow low high
  have lowDifference := exec_sbc_toNat low
  have highDifference := exec_sbc_toNat high
  obtain ⟨before, after⟩ := pairOf_of_chain low high
  rw [noBorrow, bit_false] at lowDifference
  omega

end Sys2Proof.Proofs

/-! SUPPORT. A list of bytes placed in the program area: the form of memory, and what a read of it answers. -/

namespace Sys2Proof.Asm

open Sys2Proof.Machine

/-- Every byte placed is a write, which keeps the canonical form. -/
theorem wf_place {m : Memory} (hm : m.wf = true) (off : Byte) (bs : List Byte) : (place m off bs).wf = true := by
  induction bs generalizing m off with
  | nil => exact hm
  | cons b bs ih => exact ih (Memory.wf_write hm _ _) _

/-- The address of an offset given as a number that does not wrap. -/
theorem eq_progAddr_ofNat_iff {x : Addr} {n : Nat} (hn : n < 256) :
    x = progAddr (BitVec.ofNat 8 n) ↔ x.toNat = n := by
  rw [← BitVec.toNat_inj, progAddr_toNat, BitVec.toNat_ofNat, Nat.mod_eq_of_lt hn]

/-- Bytes placed from offset `n` on, none of them past the end of the program area, read back at the addresses from
`n` on. The offset is a number, since the one after the last byte may be 256. -/
theorem read_place {m : Memory} (hm : m.wf = true) {n : Nat} {bs : List Byte} (fits : n + bs.length ≤ 256) (x : Addr) :
    (place m (BitVec.ofNat 8 n) bs).read x =
      if n ≤ x.toNat then bs[x.toNat - n]?.getD (m.read x) else m.read x := by
  induction bs generalizing m n with
  | nil => simp
  | cons b bs ih =>
    rw [List.length_cons] at fits
    have next : BitVec.ofNat 8 n + 1 = BitVec.ofNat 8 (n + 1) := (BitVec.ofNat_add n 1).symm
    have written : x = progAddr (BitVec.ofNat 8 n) ↔ x.toNat = n := eq_progAddr_ofNat_iff (by omega)
    rw [place_cons, next, ih (Memory.wf_write hm _ _) (by omega), Memory.read_write hm]
    obtain below | here | above := lt_trichotomy x.toNat n
    · simp [written, below.ne, below.not_ge, show ¬ n + 1 ≤ x.toNat by omega]
    · simp [written, here]
    · have index : x.toNat - n = x.toNat - (n + 1) + 1 := by omega
      simp [written, above.ne', above.le, Nat.succ_le_of_lt above, index]

end Sys2Proof.Asm

/-! CERTIFICATES. The statement about a program placed in memory. -/

namespace Sys2Proof.Proofs

open Sys2Proof.Machine Sys2Proof.Claims

/-- Settles O54: from offset 0 on the index of a byte is its address. -/
theorem placedProgramReadsBack : Obligations.PlacedProgramReadsBack := by
  intro m bs hm fits
  refine ⟨Asm.wf_place hm 0 bs, fun x => ?_⟩
  have read := Asm.read_place hm (n := 0) ((Nat.zero_add _).trans_le fits) x
  split_ifs with h <;> simpa [h] using read

end Sys2Proof.Proofs

/-! SUPPORT. The decoder on bytes that are just an instruction's encoding. -/

namespace Sys2Proof

theorem decode_of_encode_eq {i : Instr} {bs : List Byte} (h : encode i = bs) : decode bs = .ok (i, []) := by
  simpa [h] using decode_encode i []

end Sys2Proof

/-! CERTIFICATES. The statement about the words of the source's listings. -/

namespace Sys2Proof.Proofs

open Sys2Proof.Machine Sys2Proof.Claims

/-- Settles O5: every word is what the encoder writes for its instruction. -/
theorem listingWordsDecode : Obligations.ListingWordsDecode := by
  refine ⟨?hlt, ?scf, ?inp, ?ble, ?bp, ?sll, ?rla, ?ld, ?st, ?eor, ?sub, ?cmp⟩
  all_goals exact decode_of_encode_eq rfl

end Sys2Proof.Proofs
